-- ==== Sys2Proof/Word.lean ====
section
/-! DEFINITION. The machine's words and bytes (00_scope.md R14, R18): 16-bit words, 8-bit bytes. -/

namespace Sys2Proof

/-- A 16-bit word, "the native operand size" (00_scope.md R20). Its arithmetic wraps mod 2^16 (10_state.md R21). -/
abbrev Word := BitVec 16

/-- An 8-bit byte of the address space (10_state.md R31). -/
abbrev Byte := BitVec 8

end Sys2Proof
end

