-- ==== Sys2Proof/Config.lean ====
section
/-! DEFINITION. The open parameters of 00_scope.md R15 as plain data, their constraints (R15, R16) and the quantities
derived from them. The fixed interface of a step takes a state and nothing else, so a machine's parameters ride in its
state (`State.cfg`) and nothing changes them: a statement over every state is a statement over every choice of them.
DESIGN CHOICE, safe: notes/assumptions/1.md. INITIAL_MEMORY is not here: it is the memory a state starts with (log 3). -/

namespace Sys2Proof

/-- `ROM_WRITE`: what a CPU write to a ROM byte does (00_scope.md R15, 20_memory.md R45). -/
inductive RomWrite where
  | store
  | drop
  deriving DecidableEq, Repr

/-- `INDEX_ARITH`: how modes 6 and 7 add the index word (00_scope.md R15, 41_addressing_modes.md R103). -/
inductive IndexArith where
  | unsigned
  | wrap16
  | signed
  deriving DecidableEq, Repr

/-- The stage tags, exactly four (10_state.md R35). -/
inductive Stage where
  | fetch
  | decode
  | execute
  | memAccess
  deriving DecidableEq, Repr

/-- The parameters of 00_scope.md R15. -/
structure Config where
  ramSize : Nat
  videoSize : Nat
  romSize : Nat
  costFetch : Nat
  costDecode : Nat
  costExecute : Nat
  costMemAccess : Nat
  romWrite : RomWrite
  indexArith : IndexArith
  deriving DecidableEq, Repr

namespace Config

/-- `SIZE = RAM_SIZE + VIDEO_SIZE + ROM_SIZE` (R15). -/
def size (c : Config) : Nat := c.ramSize + c.videoSize + c.romSize

/-- `VIDEO_BASE = RAM_SIZE` (R15). -/
def videoBase (c : Config) : Nat := c.ramSize

/-- `ROM_BASE = RAM_SIZE + VIDEO_SIZE` (R15). -/
def romBase (c : Config) : Nat := c.ramSize + c.videoSize

/-- `COST(s)` (R15). -/
def cost (c : Config) : Stage → Nat
  | .fetch => c.costFetch
  | .decode => c.costDecode
  | .execute => c.costExecute
  | .memAccess => c.costMemAccess

/-- The constraints of R15 and R16: even sizes, ROM of at least two bytes, every cost at least 1, `SIZE <= 65536`. -/
def wf (c : Config) : Bool :=
  c.ramSize % 2 == 0 && c.videoSize % 2 == 0 && c.romSize % 2 == 0 && decide (2 ≤ c.romSize) &&
  decide (c.size ≤ 65536) &&
  decide (1 ≤ c.costFetch) && decide (1 ≤ c.costDecode) && decide (1 ≤ c.costExecute) && decide (1 ≤ c.costMemAccess)

/-- The example configuration of 00_scope.md R17: the one `State.reset` is made with.
DESIGN CHOICE, unsafe for a statement about `State.reset` alone: notes/assumptions/2.md. -/
def example17 : Config where
  ramSize := 0x4000
  videoSize := 0x4000
  romSize := 0x8000
  costFetch := 1
  costDecode := 1
  costExecute := 1
  costMemAccess := 1
  romWrite := .store
  indexArith := .unsigned

end Config
end Sys2Proof
end

