-- ==== Sys2Proof/Syntax.lean ====
section
/-! DEFINITION. The instructions: one constructor of `Instr` per row of spec/opcode_table.json (30_encoding.md R73),
with the operand fields of its shape (R62 to R67). -/

namespace Sys2Proof

/-- The number of a general register, 0 to 7: `r6` is the stack pointer by convention, `r7` the program counter
(10_state.md R22). -/
abbrev RegNum := Fin 8

/-- The addressing modes in the order of the table of 30_encoding.md R70 (mode numbers 0 to 7). -/
inductive Mode where
  | direct
  | deferred
  | autoInc
  | autoIncDeferred
  | autoDec
  | autoDecDeferred
  | index
  | indexDeferred
  deriving DecidableEq, Repr

/-- An operand field pair: the mode and register of a source or a destination (30_encoding.md R64 to R66). -/
structure Operand where
  mode : Mode
  reg : RegNum
  deriving DecidableEq, Repr

/-- The five shapes of 30_encoding.md R62. -/
inductive Shape where
  | noOperand
  | single
  | double
  | doubleReg
  | branch
  deriving DecidableEq, Repr

/-- The display names of the catalog (30_encoding.md R73), in its order. -/
inductive Mnemonic where
  | halt | br | bne | beq | bge | blt | bgt | ble | bpl | bmi | bhi | blos | bvc | bvs | bcc | bcs
  | clr | inc | dec | neg | xor | mov | cmp | bit | bic | bis | add | sub
  deriving DecidableEq, Repr

/-- The decoded fields of an instruction, by shape (30_encoding.md R63 to R67). A branch's offset is the field
zero-extended to a word. -/
inductive Fields where
  | noOperand
  | single (dst : Operand)
  | double (src dst : Operand)
  | doubleReg (reg : RegNum) (dst : Operand)
  | branch (off : Word)
  deriving DecidableEq, Repr

/-- The instructions of 30_encoding.md R73, in its order. -/
inductive Instr where
  | halt
  | br (off : Word)
  | bne (off : Word)
  | beq (off : Word)
  | bge (off : Word)
  | blt (off : Word)
  | bgt (off : Word)
  | ble (off : Word)
  | bpl (off : Word)
  | bmi (off : Word)
  | bhi (off : Word)
  | blos (off : Word)
  | bvc (off : Word)
  | bvs (off : Word)
  | bcc (off : Word)
  | bcs (off : Word)
  | clr (dst : Operand)
  | inc (dst : Operand)
  | dec (dst : Operand)
  | neg (dst : Operand)
  | xor (reg : RegNum) (dst : Operand)
  | mov (src dst : Operand)
  | cmp (src dst : Operand)
  | bit (src dst : Operand)
  | bic (src dst : Operand)
  | bis (src dst : Operand)
  | add (src dst : Operand)
  | sub (src dst : Operand)
  deriving DecidableEq, Repr

/-- The shape column of 30_encoding.md R73. -/
def Mnemonic.shape : Mnemonic → Shape
  | .halt => .noOperand
  | .br | .bne | .beq | .bge | .blt | .bgt | .ble | .bpl | .bmi | .bhi | .blos | .bvc | .bvs | .bcc | .bcs => .branch
  | .clr | .inc | .dec | .neg => .single
  | .xor => .doubleReg
  | .mov | .cmp | .bit | .bic | .bis | .add | .sub => .double

/-- The display name of a mnemonic as the table of 30_encoding.md R73 spells it. -/
def Mnemonic.display : Mnemonic → String
  | .halt => "HALT"
  | .br => "BR"
  | .bne => "BNE"
  | .beq => "BEQ"
  | .bge => "BGE"
  | .blt => "BLT"
  | .bgt => "BGT"
  | .ble => "BLE"
  | .bpl => "BPL"
  | .bmi => "BMI"
  | .bhi => "BHI"
  | .blos => "BLOS"
  | .bvc => "BVC"
  | .bvs => "BVS"
  | .bcc => "BCC"
  | .bcs => "BCS"
  | .clr => "CLR"
  | .inc => "INC"
  | .dec => "DEC"
  | .neg => "NEG"
  | .xor => "XOR"
  | .mov => "MOV"
  | .cmp => "CMP"
  | .bit => "BIT"
  | .bic => "BIC"
  | .bis => "BIS"
  | .add => "ADD"
  | .sub => "SUB"

/-- The mnemonic of an instruction. -/
def Instr.mnemonic : Instr → Mnemonic
  | .halt => .halt
  | .br _ => .br
  | .bne _ => .bne
  | .beq _ => .beq
  | .bge _ => .bge
  | .blt _ => .blt
  | .bgt _ => .bgt
  | .ble _ => .ble
  | .bpl _ => .bpl
  | .bmi _ => .bmi
  | .bhi _ => .bhi
  | .blos _ => .blos
  | .bvc _ => .bvc
  | .bvs _ => .bvs
  | .bcc _ => .bcc
  | .bcs _ => .bcs
  | .clr _ => .clr
  | .inc _ => .inc
  | .dec _ => .dec
  | .neg _ => .neg
  | .xor _ _ => .xor
  | .mov _ _ => .mov
  | .cmp _ _ => .cmp
  | .bit _ _ => .bit
  | .bic _ _ => .bic
  | .bis _ _ => .bis
  | .add _ _ => .add
  | .sub _ _ => .sub

/-- The decoded fields of an instruction, as a trace entry holds them (10_state.md R36). -/
def Instr.fields : Instr → Fields
  | .halt => .noOperand
  | .br off | .bne off | .beq off | .bge off | .blt off | .bgt off | .ble off | .bpl off
  | .bmi off | .bhi off | .blos off | .bvc off | .bvs off | .bcc off | .bcs off => .branch off
  | .clr dst | .inc dst | .dec dst | .neg dst => .single dst
  | .xor reg dst => .doubleReg reg dst
  | .mov src dst | .cmp src dst | .bit src dst | .bic src dst | .bis src dst | .add src dst | .sub src dst =>
    .double src dst

end Sys2Proof
end

