-- ==== Sys2Proof/Machine/State.lean ====
section
/-! DEFINITION. Everything the spec gives the machine (10_state.md), as plain data; the reasons a step can stop; the state
right after reset. -/

namespace Sys2Proof.Machine

/-- The four flags of the processor status word (10_state.md R28). -/
structure Flags where
  n : Bool
  z : Bool
  v : Bool
  c : Bool
  deriving DecidableEq, Repr

/-- The byte array of 10_state.md R31, as the list of its bytes that differ from what an unlisted address reads as. -/
abbrev Memory := List Host.Cell

/-- An entry of the pipeline history (10_state.md R34). -/
structure PipelineEntry where
  stage : Stage
  cost : Nat
  deriving DecidableEq, Repr

/-- An entry of the instruction trace (10_state.md R36). -/
structure TraceEntry where
  word : Word
  mnemonic : Mnemonic
  fields : Fields
  deriving DecidableEq, Repr

/-- The state of the machine (10_state.md). `cfg` is the model's own field: the open parameters of 00_scope.md R15, which
nothing changes (DESIGN CHOICE, safe: notes/assumptions/1.md). -/
structure State where
  /-- The parameters (00_scope.md R15). -/
  cfg : Config
  /-- `r0` to `r7` (10_state.md R21); `r7` is the program counter (R25). -/
  regs : Vector Word 8
  /-- N, Z, V, C (10_state.md R28). -/
  flags : Flags
  /-- The address space (10_state.md R31). -/
  mem : Memory
  /-- `rom_len` (10_state.md R32). -/
  romLen : Nat
  /-- The pipeline history, oldest first (10_state.md R34). -/
  hist : List PipelineEntry
  /-- The instruction trace, newest last (10_state.md R36). -/
  itrace : List TraceEntry
  /-- The word trace, newest last (10_state.md R36). -/
  wtrace : List Word
  deriving DecidableEq, Repr

/-- Why a step stops. The hardware has no trap (60_exceptions.md R143): a step returns an outcome to the host, and the
outcomes that are not `Continuing` appear here. -/
inductive Fault where
  /-- `Finished`: `pc = END` at the start of a step; nothing changed (40_execution_engine.md R83). Not an error. Raised by
  `step` before the fetch. Safe: the model stops where the hardware returns to the host with its state unchanged
  (DESIGN CHOICE, notes/assumptions/4.md). -/
  | finished
  /-- `FatalError(AddressOutOfRange)`: the fetch window does not hold `pc`; nothing changed (R84). Raised by `step` at the
  fetch. Safe: the spec's own outcome (notes/assumptions/5.md). -/
  | addressOutOfRange
  /-- `FatalError(InvalidOpcode)`: the fetched word matches no row (R85). Raised by `step` at decode. `after` is the state
  the step leaves, in which `pc` has moved past the bad word; the host may step on from it (60_exceptions.md R146). Safe:
  the spec's own outcome (notes/assumptions/5.md). -/
  | invalidOpcode (after : State)
  deriving DecidableEq, Repr

/-- What has no meaning here. -/
inductive Refusal where
  /-- An instruction whose arm has no meaning yet. Raised by no arm of this model. Safe. -/
  | notModelled (mnemonic : String)
  /-- A host accessor named register `i`, outside 0..7 (60_exceptions.md R151). Raised by `transact` only. Safe. -/
  | noSuchRegister (i : Nat)
  /-- A host accessor named a flag outside N, Z, V, C (60_exceptions.md R151). Raised by `transact` only. Safe. -/
  | noSuchFlag (f : Char)
  /-- `Load(bytes, L)` with fewer than `L` bytes: 20_memory.md R59 reads `bytes[k]` for every `k < L`. Raised by `transact`
  only. Safe (DESIGN CHOICE, notes/assumptions/10.md). -/
  | imageTooShort (given declared : Nat)
  deriving DecidableEq, Repr

/-- All four flags clear (10_state.md R39). -/
def Flags.clear : Flags := ⟨false, false, false, false⟩

/-- The machine right after reset (10_state.md R39), made with the example configuration of 00_scope.md R17
(DESIGN CHOICE, notes/assumptions/2.md) and memory with nothing listed (RAM and ROM: DESIGN CHOICE,
notes/assumptions/3.md). -/
def State.reset : State where
  cfg := Config.example17
  regs := Vector.replicate 8 0
  flags := Flags.clear
  mem := []
  romLen := 0
  hist := []
  itrace := []
  wtrace := []

end Sys2Proof.Machine
end

