-- ==== Sys2Proof/Machine/Flags.lean ====
section
/-! DEFINITION. Every flag computation of the catalog (42_double_operand.md R108 to R116, 43_single_operand.md R117 to R120)
and every branch condition (44_halt_and_branches.md R124 to R138), as functions of operand values and flags. -/

namespace Sys2Proof.Machine
namespace Flags

/-- `SetNZ(v)` (42_double_operand.md R108). -/
def setNZ (f : Flags) (v : Word) : Flags := { f with n := v.msb, z := v == 0 }

/-- MOV, BIT, BIC, BIS, XOR: `SetNZ(v); V <- false`, C unchanged (R109, R111, R112, R113, R116). -/
def logic (f : Flags) (v : Word) : Flags := { f.setNZ v with v := false }

/-- CMP: the flags of `s - d` (R110). -/
def cmp (f : Flags) (s d : Word) : Flags :=
  let t := s - d
  { f.setNZ t with v := (s.msb != d.msb) && (t.msb == d.msb), c := decide (s.toNat < d.toNat) }

/-- ADD: the flags of `s + d` (R114). -/
def add (f : Flags) (s d : Word) : Flags :=
  let r := s + d
  { f.setNZ r with v := (s.msb == d.msb) && (r.msb != s.msb), c := decide (2 ^ 16 ≤ s.toNat + d.toNat) }

/-- SUB: the flags of `d - s` (R115). -/
def sub (f : Flags) (s d : Word) : Flags :=
  let r := d - s
  { f.setNZ r with v := (s.msb != d.msb) && (r.msb == s.msb), c := decide (d.toNat < s.toNat) }

/-- CLR: `N = 0, Z = 1, V = 0, C = 0` (43_single_operand.md R117). -/
def clr : Flags := ⟨false, true, false, false⟩

/-- INC of `d`: C unchanged (R118). -/
def inc (f : Flags) (d : Word) : Flags := { f.setNZ (d + 1) with v := d == 0x7FFF }

/-- DEC of `d`: C unchanged (R119). -/
def dec (f : Flags) (d : Word) : Flags := { f.setNZ (d - 1) with v := d == 0x8000 }

/-- NEG of `d` (R120). -/
def neg (f : Flags) (d : Word) : Flags :=
  let r := 0 - d
  { f.setNZ r with v := r == 0x8000, c := r != 0 }

/-! ### Branch conditions -/

/-- BR: always (44_halt_and_branches.md R124). -/
def always (_ : Flags) : Bool := true

/-- BNE: `Z = 0` (R125). -/
def notEqual (f : Flags) : Bool := !f.z

/-- BEQ: `Z = 1` (R126). -/
def equal (f : Flags) : Bool := f.z

/-- BGE: `(N XOR V) = 0` (R127). -/
def greaterOrEqual (f : Flags) : Bool := !(f.n ^^ f.v)

/-- BLT: `(N XOR V) = 1` (R128). -/
def lessThan (f : Flags) : Bool := f.n ^^ f.v

/-- BGT: `(Z OR (N XOR V)) = 0` (R129). -/
def greaterThan (f : Flags) : Bool := !(f.z || (f.n ^^ f.v))

/-- BLE: `(Z OR (N XOR V)) = 1` (R130). -/
def lessOrEqual (f : Flags) : Bool := f.z || (f.n ^^ f.v)

/-- BPL: `N = 0` (R131). -/
def plus (f : Flags) : Bool := !f.n

/-- BMI: `N = 1` (R132). -/
def minus (f : Flags) : Bool := f.n

/-- BHI: `C = 0 and Z = 0` (R133). -/
def higher (f : Flags) : Bool := !f.c && !f.z

/-- BLOS: `(C OR Z) = 1` (R134). -/
def lowerOrSame (f : Flags) : Bool := f.c || f.z

/-- BVC: `V = 0` (R135). -/
def overflowClear (f : Flags) : Bool := !f.v

/-- BVS: `V = 1` (R136). -/
def overflowSet (f : Flags) : Bool := f.v

/-- BCC: `C = 0` (R137). -/
def carryClear (f : Flags) : Bool := !f.c

/-- BCS: `C = 1` (R138). -/
def carrySet (f : Flags) : Bool := f.c

end Flags
end Sys2Proof.Machine
end

