-- ==== Sys2Proof/WellFormed.lean ====
section
/-! DEFINITION. Which terms of `Instr` an encoding can say. Modes and register numbers carry their bounds in their types,
and every combination of them is legal (30_encoding.md R77); the one check left is a branch's offset, "a value in 0..255"
(R67). -/

namespace Sys2Proof

/-- The check on the fields of an instruction. -/
def Fields.wellFormed : Fields → Bool
  | .noOperand => true
  | .single _ => true
  | .double _ _ => true
  | .doubleReg _ _ => true
  | .branch off => decide (off.toNat < 256)

/-- `i` is well-formed: its branch offset, if it has one, is in 0..255 (30_encoding.md R67). -/
def Instr.wellFormed (i : Instr) : Bool := i.fields.wellFormed

end Sys2Proof
end

