-- ==== Sys2Proof/Decode.lean ====
section
/-! DEFINITION. The instruction decoder (30_encoding.md R61 to R77): the ordered table of descriptors, first match wins,
fields by masking and shifting; then the encoder (R80, R81), written from the same tables. -/

namespace Sys2Proof

/-! ### Byte order -/

/-- The low byte of a word. -/
def lowByte (w : Word) : Byte := w.truncate 8

/-- The high byte of a word. -/
def highByte (w : Word) : Byte := (w >>> 8).truncate 8

/-- The word of two bytes, the low byte at the lower address (20_memory.md R41). -/
def wordOfBytes (lo hi : Byte) : Word := hi ++ lo

/-! ### The instruction table -/

/-- A descriptor: mask, matching opcode, shape and mnemonic (30_encoding.md R72). Its semantic effect is the arm of
`exec` for the instruction it decodes to. -/
structure Descriptor where
  mask : Word
  opcode : Word
  shape : Shape
  mnemonic : Mnemonic
  deriving DecidableEq, Repr

/-- The catalog of 30_encoding.md R73, in declaration order. -/
def table : List Descriptor :=
  [⟨0xFFFF, 0x0000, .noOperand, .halt⟩,
   ⟨0xFF00, 0x0100, .branch, .br⟩,
   ⟨0xFF00, 0x0200, .branch, .bne⟩,
   ⟨0xFF00, 0x0300, .branch, .beq⟩,
   ⟨0xFF00, 0x0400, .branch, .bge⟩,
   ⟨0xFF00, 0x0500, .branch, .blt⟩,
   ⟨0xFF00, 0x0600, .branch, .bgt⟩,
   ⟨0xFF00, 0x0700, .branch, .ble⟩,
   ⟨0xFF00, 0x8000, .branch, .bpl⟩,
   ⟨0xFF00, 0x8100, .branch, .bmi⟩,
   ⟨0xFF00, 0x8200, .branch, .bhi⟩,
   ⟨0xFF00, 0x8300, .branch, .blos⟩,
   ⟨0xFF00, 0x8400, .branch, .bvc⟩,
   ⟨0xFF00, 0x8500, .branch, .bvs⟩,
   ⟨0xFF00, 0x8600, .branch, .bcc⟩,
   ⟨0xFF00, 0x8700, .branch, .bcs⟩] ++
  [⟨0xFFC0, 0x0A00, .single, .clr⟩,
   ⟨0xFFC0, 0x0A80, .single, .inc⟩,
   ⟨0xFFC0, 0x0AC0, .single, .dec⟩,
   ⟨0xFFC0, 0x0B00, .single, .neg⟩,
   ⟨0xFE00, 0x7800, .doubleReg, .xor⟩,
   ⟨0xF000, 0x1000, .double, .mov⟩,
   ⟨0xF000, 0x2000, .double, .cmp⟩,
   ⟨0xF000, 0x3000, .double, .bit⟩,
   ⟨0xF000, 0x4000, .double, .bic⟩,
   ⟨0xF000, 0x5000, .double, .bis⟩,
   ⟨0xF000, 0x6000, .double, .add⟩,
   ⟨0xF000, 0xE000, .double, .sub⟩]

/-- `mask & word == opcode` (30_encoding.md R71). -/
def Descriptor.accepts (d : Descriptor) (w : Word) : Bool := w &&& d.mask == d.opcode

/-- `Decode(w)` of 30_encoding.md R71: the first descriptor of the table that accepts `w`. -/
def matchRow (w : Word) : Option Descriptor := table.find? (fun d => d.accepts w)

/-! ### Field extraction -/

/-- The three bits of `w` from bit `k` up, by shifting and masking (30_encoding.md R68). -/
def field3 (k : Nat) (w : Word) : Nat := ((w >>> k) &&& 7).toNat

/-- The mode a 3-bit mode field selects (30_encoding.md R70). -/
def Mode.ofField : Nat → Mode
  | 0 => .direct
  | 1 => .deferred
  | 2 => .autoInc
  | 3 => .autoIncDeferred
  | 4 => .autoDec
  | 5 => .autoDecDeferred
  | 6 => .index
  | _ => .indexDeferred

/-- The register a 3-bit register field names. -/
def regOfField (n : Nat) : RegNum := Fin.ofNat 8 n

/-- The mode field at bit `k + 3` and the register field at bit `k` (30_encoding.md R64 to R66). -/
def operandAt (k : Nat) (w : Word) : Operand := ⟨Mode.ofField (field3 (k + 3) w), regOfField (field3 k w)⟩

/-- `dmode = w[5:3]`, `dreg = w[2:0]`. -/
def dstField (w : Word) : Operand := operandAt 0 w

/-- `smode = w[11:9]`, `sreg = w[8:6]`. -/
def srcField (w : Word) : Operand := operandAt 6 w

/-- `reg = w[8:6]` (30_encoding.md R66). -/
def regField (w : Word) : RegNum := regOfField (field3 6 w)

/-- `off = zext_16(w[7:0])`, not sign-extended and not scaled (30_encoding.md R67, R68). -/
def offField (w : Word) : Word := w &&& 0x00FF

/-- `Extract(shape, w)` (30_encoding.md R63 to R67). -/
def extract (sh : Shape) (w : Word) : Fields :=
  match sh with
  | .noOperand => .noOperand
  | .single => .single (dstField w)
  | .double => .double (srcField w) (dstField w)
  | .doubleReg => .doubleReg (regField w) (dstField w)
  | .branch => .branch (offField w)

/-- The instruction of a mnemonic with the fields that its shape has in `w`. -/
def Mnemonic.instr (m : Mnemonic) (w : Word) : Instr :=
  match m with
  | .halt => .halt
  | .br => .br (offField w)
  | .bne => .bne (offField w)
  | .beq => .beq (offField w)
  | .bge => .bge (offField w)
  | .blt => .blt (offField w)
  | .bgt => .bgt (offField w)
  | .ble => .ble (offField w)
  | .bpl => .bpl (offField w)
  | .bmi => .bmi (offField w)
  | .bhi => .bhi (offField w)
  | .blos => .blos (offField w)
  | .bvc => .bvc (offField w)
  | .bvs => .bvs (offField w)
  | .bcc => .bcc (offField w)
  | .bcs => .bcs (offField w)
  | .clr => .clr (dstField w)
  | .inc => .inc (dstField w)
  | .dec => .dec (dstField w)
  | .neg => .neg (dstField w)
  | .xor => .xor (regField w) (dstField w)
  | .mov => .mov (srcField w) (dstField w)
  | .cmp => .cmp (srcField w) (dstField w)
  | .bit => .bit (srcField w) (dstField w)
  | .bic => .bic (srcField w) (dstField w)
  | .bis => .bis (srcField w) (dstField w)
  | .add => .add (srcField w) (dstField w)
  | .sub => .sub (srcField w) (dstField w)

/-! ### Decoding -/

/-- Why a word or a run of bytes is not an instruction. -/
inductive DecodeError where
  /-- The word matches no row (30_encoding.md R74). -/
  | invalidOpcode
  /-- Fewer than the two bytes of an instruction word (R61). -/
  | truncated
  deriving DecidableEq, Repr

/-- What the decoder answers for a word. -/
inductive Decoded where
  | instr (i : Instr)
  | rejected (e : DecodeError)
  deriving DecidableEq, Repr

/-- Decode an instruction word: the first matching row, with its fields (30_encoding.md R71, R63 to R67); a word no row
matches is illegal (R74). -/
def decode (w : Word) : Decoded :=
  match matchRow w with
  | none => .rejected .invalidOpcode
  | some d => .instr (d.mnemonic.instr w)

/-- Decode the instruction word at the front of any bytes. Extension words are not the decoder's: the resolver reads
them during the step (30_encoding.md R61, R69). -/
def decodeBytes : List Byte → Decoded
  | lo :: hi :: _ => decode (wordOfBytes lo hi)
  | _ => .rejected .truncated

/-- The longest instruction: one instruction word and two extension words (30_encoding.md R69). -/
def longestInstrBytes : Nat := 6

/-- The first `n` bytes, from the lowest address up, of the number `w`: bits 7..0 first. -/
def bytesOfNat : Nat → Nat → List Byte
  | 0, _ => []
  | n + 1, w => BitVec.ofNat 8 w :: bytesOfNat n (w / 256)

/-- The bytes in memory of an instruction whose first `nbits` bits are those of `w` and whose further bits are 0. -/
def tableWordBytes (nbits w : Nat) : List Byte := bytesOfNat longestInstrBytes (w % 2 ^ nbits)

/-- The instruction the decoder reads from a row of spec/opcode_table.json whose bits are `w`. -/
def decodeTableWord (nbits w : Nat) : Option Instr :=
  match decodeBytes (tableWordBytes nbits w) with
  | .instr i => some i
  | .rejected _ => none

/-! ### Encoding -/

/-- The mode number of a mode (30_encoding.md R70). -/
def Mode.number : Mode → Nat
  | .direct => 0
  | .deferred => 1
  | .autoInc => 2
  | .autoIncDeferred => 3
  | .autoDec => 4
  | .autoDecDeferred => 5
  | .index => 6
  | .indexDeferred => 7

/-- `8 * mode + reg`, the six bits of an operand (30_encoding.md R81). -/
def Operand.bits (o : Operand) : Nat := 8 * o.mode.number + o.reg.val

/-- The match column of 30_encoding.md R73, written a second time for the encoder. -/
def Mnemonic.base : Mnemonic → Nat
  | .halt => 0o000000
  | .br => 0o000400
  | .bne => 0o001000
  | .beq => 0o001400
  | .bge => 0o002000
  | .blt => 0o002400
  | .bgt => 0o003000
  | .ble => 0o003400
  | .bpl => 0o100000
  | .bmi => 0o100400
  | .bhi => 0o101000
  | .blos => 0o101400
  | .bvc => 0o102000
  | .bvs => 0o102400
  | .bcc => 0o103000
  | .bcs => 0o103400
  | .clr => 0o005000
  | .inc => 0o005200
  | .dec => 0o005300
  | .neg => 0o005400
  | .xor => 0o074000
  | .mov => 0o010000
  | .cmp => 0o020000
  | .bit => 0o030000
  | .bic => 0o040000
  | .bis => 0o050000
  | .add => 0o060000
  | .sub => 0o160000

/-- The bits the fields add to the match value (30_encoding.md R80, R81). -/
def Fields.bits : Fields → Nat
  | .noOperand => 0
  | .single dst => dst.bits
  | .double src dst => 64 * src.bits + dst.bits
  | .doubleReg reg dst => 64 * reg.val + dst.bits
  | .branch off => off.toNat

/-- The instruction word of a well-formed instruction (30_encoding.md R80, R81). -/
def encode (i : Instr) : Word := BitVec.ofNat 16 (i.mnemonic.base + i.fields.bits)

end Sys2Proof
end

