-- ==== Sys2Proof/Machine/Ops.lean ====
section
/-! DEFINITION. The named operations over registers, flags and memory: every meaning reads and writes the state through
these. The hardware has no trap entry and no return from one (60_exceptions.md R143, R147), so there is no operation that
takes an exception: the outcomes a step ends with are built in `fetch` and `step`. -/

namespace Sys2Proof.Machine

/-! ### Registers and flags -/

/-- `pc` is a synonym of `r7` (10_state.md R22, R25). -/
def pcNum : RegNum := 7

namespace State

/-- `x[i]` (00_scope.md R19). -/
def reg (s : State) (i : RegNum) : Word := s.regs[i.val]

/-- `x[i] <- v` (00_scope.md R19). No register is hardwired (10_state.md R22). -/
def setReg (s : State) (i : RegNum) (v : Word) : State := { s with regs := s.regs.set i.val v }

/-- The program counter, `r7` (10_state.md R25). -/
def pc (s : State) : Word := s.reg pcNum

/-- `pc <- t` (00_scope.md R19). -/
def setPc (s : State) (t : Word) : State := s.setReg pcNum t

/-- `pc <- (pc + 2) mod 2^16` (10_state.md R26). -/
def advancePc (s : State) : State := s.setPc (s.pc + 2)

/-- Write the four flags. -/
def setFlags (s : State) (f : Flags) : State := { s with flags := f }

end State

/-! ### Bytes of memory -/

/-- What an address that is not listed reads as. Video memory is zero at power-on and after reset (10_state.md R39); for
RAM and ROM it is the model's choice (DESIGN CHOICE, notes/assumptions/3.md). -/
def unlistedByte : Byte := 0

namespace Memory

/-- `mem[a]`. -/
def read : Memory → Nat → Byte
  | [], _ => unlistedByte
  | (b, w) :: m, a => if a = b then w else read m a

/-- `mem[a] <- v`, keeping the canonical form: addresses rising, no entry equal to `unlistedByte`. -/
def write : Memory → Nat → Byte → Memory
  | [], a, v => if v = unlistedByte then [] else [(a, v)]
  | (b, w) :: m, a, v =>
    if a < b then (if v = unlistedByte then (b, w) :: m else (a, v) :: (b, w) :: m)
    else if a = b then (if v = unlistedByte then m else (a, v) :: m)
    else (b, w) :: write m a v

/-- The canonical form: addresses strictly rising and no entry equal to what an unlisted address reads as. -/
def wf : Memory → Bool
  | [] => true
  | (b, w) :: m => decide (w ≠ unlistedByte) && m.all (fun cell => decide (b < cell.1)) && wf m

/-- Bytes stored one after another from `a` up. -/
def writeBytes : Memory → Nat → List Byte → Memory
  | m, _, [] => m
  | m, a, v :: vs => writeBytes (write m a v) (a + 1) vs

/-- The `n` bytes from `a` up. -/
def readBytes (m : Memory) (a n : Nat) : List Byte := (List.range n).map (fun k => m.read (a + k))

/-- The bytes `lo .. hi - 1` set to zero. -/
def clearRange (m : Memory) (lo hi : Nat) : Memory := m.filter (fun cell => !(decide (lo ≤ cell.1) && decide (cell.1 < hi)))

end Memory

/-! ### The address space -/

/-- `Valid(a)`: `0 <= a` and `a + 1 <= SIZE - 1`, over the integers (20_memory.md R42). No alignment is asked (R43). -/
def valid (c : Config) (a : Int) : Bool := decide (0 ≤ a) && decide (a + 1 ≤ (c.size : Int) - 1)

/-- A region of the address space and an offset in it (20_memory.md R46). -/
inductive Region where
  | ram (offset : Nat)
  | video (offset : Nat)
  | rom (offset : Nat)
  deriving DecidableEq, Repr

/-- `Region(b)` for a byte address `b` of the address space (20_memory.md R46); no region holds any other address. -/
def region (c : Config) (b : Nat) : Option Region :=
  if b < c.ramSize then some (.ram b)
  else if b < c.romBase then some (.video (b - c.ramSize))
  else if b < c.size then some (.rom (b - c.romBase))
  else none

/-- `END = ROM_BASE + rom_len`, an integer that may be 65536 (10_state.md R33). -/
def State.endAddr (s : State) : Nat := s.cfg.romBase + s.romLen

/-- `FetchValid(a)`: `ROM_BASE <= a` and `a + 1 <= END - 1`, over the integers (20_memory.md R47). -/
def fetchValid (s : State) (a : Int) : Bool :=
  decide ((s.cfg.romBase : Int) ≤ a) && decide (a + 1 ≤ (s.endAddr : Int) - 1)

/-- `MemRead(a, 2)` (20_memory.md R44): the little-endian word at `a`. -/
def memRead (s : State) (a : Nat) : Word := wordOfBytes (s.mem.read a) (s.mem.read (a + 1))

/-- A CPU write to one byte: a ROM byte is left alone when `ROM_WRITE = Drop` (20_memory.md R45). -/
def cpuWriteByte (s : State) (b : Nat) (v : Byte) : State :=
  if s.cfg.romBase ≤ b ∧ s.cfg.romWrite = .drop then s else { s with mem := s.mem.write b v }

/-- `MemWrite(a, 2, v)` (20_memory.md R45). -/
def memWrite (s : State) (a : Nat) (v : Word) : State :=
  cpuWriteByte (cpuWriteByte s a (lowByte v)) (a + 1) (highByte v)

/-! ### Locations -/

/-- What an operand designates: a register, or the word at a valid address (00_scope.md R19). -/
inductive Location where
  | reg (i : RegNum)
  | mem (a : Nat)
  deriving DecidableEq, Repr

/-- `LocRead(L)` (00_scope.md R19). -/
def locRead (s : State) : Location → Word
  | .reg i => s.reg i
  | .mem a => memRead s a

/-- `LocWrite(L, v)` (00_scope.md R19). -/
def locWrite (s : State) (l : Location) (v : Word) : State :=
  match l with
  | .reg i => s.setReg i v
  | .mem a => memWrite s a v

end Sys2Proof.Machine
end

