-- ==== Sys2Proof/Machine/ControlTransfer.lean ====
section
/-! DEFINITION. HALT and the fifteen branches (44_halt_and_branches.md). Every meaning ends in a next state; none writes a
flag. -/

namespace Sys2Proof.Machine

/-- The branch effect (R122): `pc`, which is already past the branch word, moves by `2 * off` mod 2^16 if the condition
holds. -/
def branchIf (cond : Bool) (off : Word) (s : State) : State := if cond then s.setPc (s.pc + 2 * off) else s

/-- HALT (R121): no effect and no halted state; the step completes. -/
def execHalt (s : State) : Host.Outcome State Fault Refusal := .next s

/-- BR (R124). -/
def execBr (off : Word) (s : State) : Host.Outcome State Fault Refusal := .next (branchIf s.flags.always off s)

/-- BNE (R125). -/
def execBne (off : Word) (s : State) : Host.Outcome State Fault Refusal := .next (branchIf s.flags.notEqual off s)

/-- BEQ (R126). -/
def execBeq (off : Word) (s : State) : Host.Outcome State Fault Refusal := .next (branchIf s.flags.equal off s)

/-- BGE (R127). -/
def execBge (off : Word) (s : State) : Host.Outcome State Fault Refusal := .next (branchIf s.flags.greaterOrEqual off s)

/-- BLT (R128). -/
def execBlt (off : Word) (s : State) : Host.Outcome State Fault Refusal := .next (branchIf s.flags.lessThan off s)

/-- BGT (R129). -/
def execBgt (off : Word) (s : State) : Host.Outcome State Fault Refusal := .next (branchIf s.flags.greaterThan off s)

/-- BLE (R130). -/
def execBle (off : Word) (s : State) : Host.Outcome State Fault Refusal := .next (branchIf s.flags.lessOrEqual off s)

/-- BPL (R131). -/
def execBpl (off : Word) (s : State) : Host.Outcome State Fault Refusal := .next (branchIf s.flags.plus off s)

/-- BMI (R132). -/
def execBmi (off : Word) (s : State) : Host.Outcome State Fault Refusal := .next (branchIf s.flags.minus off s)

/-- BHI (R133). -/
def execBhi (off : Word) (s : State) : Host.Outcome State Fault Refusal := .next (branchIf s.flags.higher off s)

/-- BLOS (R134). -/
def execBlos (off : Word) (s : State) : Host.Outcome State Fault Refusal := .next (branchIf s.flags.lowerOrSame off s)

/-- BVC (R135). -/
def execBvc (off : Word) (s : State) : Host.Outcome State Fault Refusal := .next (branchIf s.flags.overflowClear off s)

/-- BVS (R136). -/
def execBvs (off : Word) (s : State) : Host.Outcome State Fault Refusal := .next (branchIf s.flags.overflowSet off s)

/-- BCC (R137). -/
def execBcc (off : Word) (s : State) : Host.Outcome State Fault Refusal := .next (branchIf s.flags.carryClear off s)

/-- BCS (R138). -/
def execBcs (off : Word) (s : State) : Host.Outcome State Fault Refusal := .next (branchIf s.flags.carrySet off s)

end Sys2Proof.Machine
end

