-- ==== Sys2Proof/Machine/Operands.lean ====
section
/-! DEFINITION. The addressing resolver (41_addressing_modes.md): a (register, mode) pair turned into a location, with its
side effects and rollbacks, one definition per mode; and the ways an instruction of each shape resolves its operands and
runs its effect (40_execution_engine.md R87 to R89). -/

namespace Sys2Proof.Machine

/-- What a resolution answers: `Ok(L)` or `Fail` (41_addressing_modes.md R94), and the state its side effects leave. -/
structure Resolution where
  loc : Option Location
  state : State
  deriving DecidableEq, Repr

/-- `return Fail`, in the state given. -/
def resolutionFails (s : State) : Resolution := ⟨none, s⟩

/-- `return Ok(Mem(a))`, in the state given. -/
def resolvesToMem (a : Nat) (s : State) : Resolution := ⟨some (.mem a), s⟩

/-- Mode 0, Direct (41_addressing_modes.md R95). -/
def resolveDirect (r : RegNum) (s : State) : Resolution := ⟨some (.reg r), s⟩

/-- Mode 1, Register-deferred (R96). -/
def resolveDeferred (r : RegNum) (s : State) : Resolution :=
  let a := (s.reg r).toNat
  if valid s.cfg a then resolvesToMem a s else resolutionFails s

/-- Mode 2, Auto-increment (R97): the increment, mod 2^16, is the last act and happens only on success. -/
def resolveAutoInc (r : RegNum) (s : State) : Resolution :=
  let a := (s.reg r).toNat
  if valid s.cfg a then resolvesToMem a (s.setReg r (s.reg r + 2)) else resolutionFails s

/-- Mode 3, Auto-increment-deferred (R98). -/
def resolveAutoIncDeferred (r : RegNum) (s : State) : Resolution :=
  let a := (s.reg r).toNat
  if valid s.cfg a then
    let p := (memRead s a).toNat
    if valid s.cfg p then resolvesToMem p (s.setReg r (s.reg r + 2)) else resolutionFails s
  else resolutionFails s

/-- Mode 4, Auto-decrement (R99): a register below 2 fails unchanged; a failure after the decrement restores it (C4). -/
def resolveAutoDec (r : RegNum) (s : State) : Resolution :=
  if (s.reg r).toNat < 2 then resolutionFails s
  else
    let s1 := s.setReg r (s.reg r - 2)
    let a := (s1.reg r).toNat
    if valid s1.cfg a then resolvesToMem a s1 else resolutionFails (s1.setReg r (s1.reg r + 2))

/-- Mode 5, Auto-decrement-deferred (R100): every failure after the decrement restores the register. -/
def resolveAutoDecDeferred (r : RegNum) (s : State) : Resolution :=
  if (s.reg r).toNat < 2 then resolutionFails s
  else
    let s1 := s.setReg r (s.reg r - 2)
    let a := (s1.reg r).toNat
    if valid s1.cfg a then
      let p := (memRead s1 a).toNat
      if valid s1.cfg p then resolvesToMem p s1 else resolutionFails (s1.setReg r (s1.reg r + 2))
    else resolutionFails (s1.setReg r (s1.reg r + 2))

/-- `EA(R, X)` by `INDEX_ARITH` (R103), an integer that `valid` then checks; no variant refuses. -/
def effectiveAddress (k : IndexArith) (base x : Word) : Int :=
  match k with
  | .unsigned => (base.toNat : Int) + x.toNat
  | .wrap16 => ((base + x).toNat : Int)
  | .signed => (base.toNat : Int) + x.toInt

/-- Mode 6, Index (R101): the index word is read at `pc` by the ordinary word read, `pc` moves past it and is not rolled
back, and the base register is read after that advance. -/
def resolveIndex (r : RegNum) (s : State) : Resolution :=
  let i := s.pc.toNat
  if valid s.cfg i then
    let x := memRead s i
    let s1 := s.advancePc
    let e := effectiveAddress s1.cfg.indexArith (s1.reg r) x
    if valid s1.cfg e then resolvesToMem e.toNat s1 else resolutionFails s1
  else resolutionFails s

/-- Mode 7, Index-deferred (R102). -/
def resolveIndexDeferred (r : RegNum) (s : State) : Resolution :=
  let i := s.pc.toNat
  if valid s.cfg i then
    let x := memRead s i
    let s1 := s.advancePc
    let e := effectiveAddress s1.cfg.indexArith (s1.reg r) x
    if valid s1.cfg e then
      let p := (memRead s1 e.toNat).toNat
      if valid s1.cfg p then resolvesToMem p s1 else resolutionFails s1
    else resolutionFails s1
  else resolutionFails s

/-- `Resolve(r, m)` (41_addressing_modes.md R94). -/
def resolve (o : Operand) (s : State) : Resolution :=
  match o.mode with
  | .direct => resolveDirect o.reg s
  | .deferred => resolveDeferred o.reg s
  | .autoInc => resolveAutoInc o.reg s
  | .autoIncDeferred => resolveAutoIncDeferred o.reg s
  | .autoDec => resolveAutoDec o.reg s
  | .autoDecDeferred => resolveAutoDecDeferred o.reg s
  | .index => resolveIndex o.reg s
  | .indexDeferred => resolveIndexDeferred o.reg s

/-- The resolution of a `Double` instruction: the source, then the destination in the state the source left, whether or
not the source resolved (40_execution_engine.md R87). -/
def resolveDouble (src dst : Operand) (s : State) : Option (Location × Location) × State :=
  let rs := resolve src s
  let rd := resolve dst rs.state
  match rs.loc, rd.loc with
  | some ls, some ld => (some (ls, ld), rd.state)
  | _, _ => (none, rd.state)

/-- A `Single` instruction: the effect runs on the destination if it resolved and is skipped otherwise; what the
resolution changed stays (40_execution_engine.md R87 to R89). -/
def runSingle (effect : Location → State → State) (dst : Operand) (s : State) : State :=
  let rd := resolve dst s
  match rd.loc with
  | some ld => effect ld rd.state
  | none => rd.state

/-- A `Double` instruction: the effect runs on source and destination if both resolved (40_execution_engine.md R87 to
R89). -/
def runDouble (effect : Location → Location → State → State) (src dst : Operand) (s : State) : State :=
  match resolveDouble src dst s with
  | (some (ls, ld), s2) => effect ls ld s2
  | (none, s2) => s2

/-- A `DoubleReg` instruction: the source is a register, never fails and has no side effect (40_execution_engine.md
R87). -/
def runDoubleReg (effect : Location → Location → State → State) (reg : RegNum) (dst : Operand) (s : State) : State :=
  runSingle (effect (.reg reg)) dst s

end Sys2Proof.Machine
end

