-- ==== Sys2Proof/Machine/DoubleOperand.lean ====
section
/-! DEFINITION. The double-operand instructions (42_double_operand.md): each one's effect on resolved locations, and its
meaning. Every meaning ends in a next state; an operand that fails to resolve skips the effect (40_execution_engine.md
R89). -/

namespace Sys2Proof.Machine

/-- MOV (R109). -/
def effectMov (ls ld : Location) (st : State) : State :=
  let s := locRead st ls
  (locWrite st ld s).setFlags (st.flags.logic s)

/-- CMP (R110): source minus destination; nothing but flags is written. -/
def effectCmp (ls ld : Location) (st : State) : State :=
  st.setFlags (st.flags.cmp (locRead st ls) (locRead st ld))

/-- BIT (R111): nothing but flags is written. -/
def effectBit (ls ld : Location) (st : State) : State :=
  st.setFlags (st.flags.logic (locRead st ls &&& locRead st ld))

/-- BIC (R112). -/
def effectBic (ls ld : Location) (st : State) : State :=
  let r := ~~~(locRead st ls) &&& locRead st ld
  (locWrite st ld r).setFlags (st.flags.logic r)

/-- BIS (R113). -/
def effectBis (ls ld : Location) (st : State) : State :=
  let r := locRead st ls ||| locRead st ld
  (locWrite st ld r).setFlags (st.flags.logic r)

/-- ADD (R114). -/
def effectAdd (ls ld : Location) (st : State) : State :=
  let s := locRead st ls
  let d := locRead st ld
  (locWrite st ld (s + d)).setFlags (st.flags.add s d)

/-- SUB (R115): destination minus source. -/
def effectSub (ls ld : Location) (st : State) : State :=
  let s := locRead st ls
  let d := locRead st ld
  (locWrite st ld (d - s)).setFlags (st.flags.sub s d)

/-- XOR (R116): the source register is read at effect time. -/
def effectXor (ls ld : Location) (st : State) : State :=
  let r := locRead st ls ^^^ locRead st ld
  (locWrite st ld r).setFlags (st.flags.logic r)

/-- MOV (42_double_operand.md R109). -/
def execMov (src dst : Operand) (s : State) : Host.Outcome State Fault Refusal := .next (runDouble effectMov src dst s)

/-- CMP (R110). -/
def execCmp (src dst : Operand) (s : State) : Host.Outcome State Fault Refusal := .next (runDouble effectCmp src dst s)

/-- BIT (R111). -/
def execBit (src dst : Operand) (s : State) : Host.Outcome State Fault Refusal := .next (runDouble effectBit src dst s)

/-- BIC (R112). -/
def execBic (src dst : Operand) (s : State) : Host.Outcome State Fault Refusal := .next (runDouble effectBic src dst s)

/-- BIS (R113). -/
def execBis (src dst : Operand) (s : State) : Host.Outcome State Fault Refusal := .next (runDouble effectBis src dst s)

/-- ADD (R114). -/
def execAdd (src dst : Operand) (s : State) : Host.Outcome State Fault Refusal := .next (runDouble effectAdd src dst s)

/-- SUB (R115). -/
def execSub (src dst : Operand) (s : State) : Host.Outcome State Fault Refusal := .next (runDouble effectSub src dst s)

/-- XOR (R116). -/
def execXor (reg : RegNum) (dst : Operand) (s : State) : Host.Outcome State Fault Refusal :=
  .next (runDoubleReg effectXor reg dst s)

end Sys2Proof.Machine
end

