-- ==== Sys2Proof/Machine/SingleOperand.lean ====
section
/-! DEFINITION. The single-operand instructions (43_single_operand.md): each one's effect on its resolved location, and its
meaning. Every meaning ends in a next state. -/

namespace Sys2Proof.Machine

/-- CLR (R117): the old value is not read; all four flags are written. -/
def effectClr (ld : Location) (st : State) : State := (locWrite st ld 0).setFlags Flags.clr

/-- INC (R118). -/
def effectInc (ld : Location) (st : State) : State :=
  let d := locRead st ld
  (locWrite st ld (d + 1)).setFlags (st.flags.inc d)

/-- DEC (R119). -/
def effectDec (ld : Location) (st : State) : State :=
  let d := locRead st ld
  (locWrite st ld (d - 1)).setFlags (st.flags.dec d)

/-- NEG (R120). -/
def effectNeg (ld : Location) (st : State) : State :=
  let d := locRead st ld
  (locWrite st ld (0 - d)).setFlags (st.flags.neg d)

/-- CLR (43_single_operand.md R117). -/
def execClr (dst : Operand) (s : State) : Host.Outcome State Fault Refusal := .next (runSingle effectClr dst s)

/-- INC (R118). -/
def execInc (dst : Operand) (s : State) : Host.Outcome State Fault Refusal := .next (runSingle effectInc dst s)

/-- DEC (R119). -/
def execDec (dst : Operand) (s : State) : Host.Outcome State Fault Refusal := .next (runSingle effectDec dst s)

/-- NEG (R120). -/
def execNeg (dst : Operand) (s : State) : Host.Outcome State Fault Refusal := .next (runSingle effectNeg dst s)

end Sys2Proof.Machine
end

