-- ==== Sys2Proof/Machine/Dispatch.lean ====
section
/-! DEFINITION. The instruction's own part of a step: resolution of its operands and its semantic effect
(40_execution_engine.md R87 to R89), one arm per constructor of `Instr`. The state `s` is the one after the fetch, with
`pc` past the instruction word. -/

namespace Sys2Proof.Machine

/-- The meaning of each instruction (30_encoding.md R72: the descriptor's semantic effect, reached through the resolver). -/
def exec (i : Instr) (s : State) : Host.Outcome State Fault Refusal :=
  match i with
  | .halt => Sys2Proof.Machine.execHalt s
  | .br off => Sys2Proof.Machine.execBr off s
  | .bne off => Sys2Proof.Machine.execBne off s
  | .beq off => Sys2Proof.Machine.execBeq off s
  | .bge off => Sys2Proof.Machine.execBge off s
  | .blt off => Sys2Proof.Machine.execBlt off s
  | .bgt off => Sys2Proof.Machine.execBgt off s
  | .ble off => Sys2Proof.Machine.execBle off s
  | .bpl off => Sys2Proof.Machine.execBpl off s
  | .bmi off => Sys2Proof.Machine.execBmi off s
  | .bhi off => Sys2Proof.Machine.execBhi off s
  | .blos off => Sys2Proof.Machine.execBlos off s
  | .bvc off => Sys2Proof.Machine.execBvc off s
  | .bvs off => Sys2Proof.Machine.execBvs off s
  | .bcc off => Sys2Proof.Machine.execBcc off s
  | .bcs off => Sys2Proof.Machine.execBcs off s
  | .clr dst => Sys2Proof.Machine.execClr dst s
  | .inc dst => Sys2Proof.Machine.execInc dst s
  | .dec dst => Sys2Proof.Machine.execDec dst s
  | .neg dst => Sys2Proof.Machine.execNeg dst s
  | .xor reg dst => Sys2Proof.Machine.execXor reg dst s
  | .mov src dst => Sys2Proof.Machine.execMov src dst s
  | .cmp src dst => Sys2Proof.Machine.execCmp src dst s
  | .bit src dst => Sys2Proof.Machine.execBit src dst s
  | .bic src dst => Sys2Proof.Machine.execBic src dst s
  | .bis src dst => Sys2Proof.Machine.execBis src dst s
  | .add src dst => Sys2Proof.Machine.execAdd src dst s
  | .sub src dst => Sys2Proof.Machine.execSub src dst s

end Sys2Proof.Machine
end

