-- ==== Sys2Proof/Machine/Fetch.lean ====
section
/-! DEFINITION. Phases 1 and 2 of a step: the end check and the fetch (40_execution_engine.md R83, R84). -/

namespace Sys2Proof.Machine

/-- What phases 1 and 2 answer: a reason to stop, or the fetched word and the state with `pc` past it. -/
inductive Fetched where
  | stop (r : Fault)
  | word (w : Word) (s : State)
  deriving DecidableEq, Repr

/-- `pc = END`, compared as integers, then `FetchValid(pc)`, then the word at `pc` and the advance of `pc` mod 2^16
(40_execution_engine.md R83, R84; 60_exceptions.md R144). -/
def fetch (s : State) : Fetched :=
  if s.pc.toNat = s.endAddr then .stop .finished
  else if fetchValid s s.pc.toNat then .word (memRead s s.pc.toNat) s.advancePc
  else .stop .addressOutOfRange

/-- Completing a step: the instruction's next state is recorded (R90, R91); anything else ends the step as it is. -/
def completing (after : State → State) :
    Host.Outcome State Fault Refusal → Host.Outcome State Fault Refusal
  | .next s => .next (after s)
  | .fault r => .fault r
  | .refused r => .refused r

end Sys2Proof.Machine
end

