-- ==== Sys2Proof/Machine/HostOps.lean ====
section
/-! DEFINITION. What the host does to the state between steps: power-on, reset, loading, the accessors and the observers
(20_memory.md R58, R59; 60_exceptions.md R150 to R152; 70_reset_and_hazards.md R157 to R161). -/

namespace Sys2Proof.Machine

/-- Power-on (70_reset_and_hazards.md R159, 10_state.md R39) with parameters `c` and INITIAL_MEMORY `init`: video memory
all zero, RAM and ROM bytes those of `init`, nothing outside the address space. -/
def powerOn (c : Config) (init : Memory) : State where
  cfg := c
  regs := Vector.replicate 8 0
  flags := Flags.clear
  mem := (Memory.clearRange init c.videoBase c.romBase).filter (fun cell => decide (cell.1 < c.size))
  romLen := 0
  hist := []
  itrace := []
  wtrace := []

/-- `ResetRegisters()` (00_scope.md R9): every register zero, every flag clear. -/
def resetRegisters (s : State) : State := { s with regs := Vector.replicate 8 0, flags := Flags.clear }

/-- `Reset()` (70_reset_and_hazards.md R157): registers, flags, video memory, history and traces; RAM, ROM and `rom_len`
stay (R158). -/
def hostReset (s : State) : State :=
  { resetRegisters s with
    mem := s.mem.clearRange s.cfg.videoBase s.cfg.romBase
    hist := []
    itrace := []
    wtrace := [] }

/-- The image written to ROM from its base and `rom_len` set, whatever `ROM_WRITE` is (20_memory.md R59). -/
def loadImage (image : List Byte) (s : State) : State :=
  { s with mem := s.mem.writeBytes s.cfg.romBase image, romLen := image.length }

/-- `SetReg(7, ROM_BASE)`, the last act of a boot (70_reset_and_hazards.md R161). -/
def setPcToRom (s : State) : State := s.setPc (BitVec.ofNat 16 s.cfg.romBase)

/-- Write one flag (60_exceptions.md R152); `none` for an identifier outside N, Z, V, C (R151). The identifiers are the
characters of R9 (DESIGN CHOICE, notes/assumptions/9.md). -/
def setFlagNamed (f : Char) (b : Bool) (s : State) : Option State :=
  if f = 'N' then some (s.setFlags { s.flags with n := b })
  else if f = 'Z' then some (s.setFlags { s.flags with z := b })
  else if f = 'V' then some (s.setFlags { s.flags with v := b })
  else if f = 'C' then some (s.setFlags { s.flags with c := b })
  else none

/-- Read one flag; `none` for an identifier outside N, Z, V, C (60_exceptions.md R151). -/
def readFlagNamed (f : Char) (s : State) : Option Bool :=
  if f = 'N' then some s.flags.n
  else if f = 'Z' then some s.flags.z
  else if f = 'V' then some s.flags.v
  else if f = 'C' then some s.flags.c
  else none

/-- `VideoSnapshot(maxLen)` (20_memory.md R58). -/
def videoSnapshot (s : State) (maxLen : Nat) : List Byte := s.mem.readBytes s.cfg.videoBase (min maxLen s.cfg.videoSize)

/-- `RomSnapshot(maxLen)` (20_memory.md R58). -/
def romSnapshot (s : State) (maxLen : Nat) : List Byte := s.mem.readBytes s.cfg.romBase (min maxLen s.cfg.romSize)

/-- The last `n` entries of a list, all of it if it has fewer (60_exceptions.md R150, R151). -/
def lastEntries {α : Type} (n : Nat) (l : List α) : List α := l.drop (l.length - n)

/-- The bytes of an instruction put where the next step fetches it. If `pc` is in the fetch window they are stored there,
as far as the address space reaches; otherwise they are loaded as a ROM image and `pc` is set to it, the boot of
70_reset_and_hazards.md R161 (notes/assumptions/6.md). -/
def placeAtFetch (bytes : List Byte) (s : State) : State :=
  if fetchValid s s.pc.toNat then
    { s with mem := s.mem.writeBytes s.pc.toNat (bytes.take (s.cfg.size - s.pc.toNat)) }
  else setPcToRom (loadImage (bytes.take s.cfg.romSize) s)

end Sys2Proof.Machine
end

