-- ==== Sys2Proof/Machine/Pipeline.lean ====
section
/-! DEFINITION. What a completed step appends to the traces and to the pipeline history (40_execution_engine.md R90, R91),
and the two tick totals (70_reset_and_hazards.md R166 to R168). Nothing architectural reads any of it (R165). -/

namespace Sys2Proof.Machine

/-- The five entries of one executed step, in order: `Fetch, Decode, Execute, MemAccess, MemAccess` (10_state.md R35, C2).
The cost of an entry depends on its tag only (70_reset_and_hazards.md R166). -/
def stepEntries (c : Config) : List PipelineEntry :=
  [.fetch, .decode, .execute, .memAccess, .memAccess].map (fun st => ⟨st, c.cost st⟩)

/-- Phases 7 and 8 of a step (40_execution_engine.md R90, R91): the two trace entries and the five pipeline entries. -/
def record (w : Word) (i : Instr) (s : State) : State :=
  { s with
    itrace := s.itrace ++ [⟨w, i.mnemonic, i.fields⟩]
    wtrace := s.wtrace ++ [w]
    hist := s.hist ++ stepEntries s.cfg }

/-- The sum of the costs of a run of entries. -/
def totalCost (h : List PipelineEntry) : Nat := (h.map (fun e => e.cost)).sum

/-- The greatest cost of a run of entries, 0 for none. -/
def maxCost : List PipelineEntry → Nat
  | [] => 0
  | e :: h => max e.cost (maxCost h)

/-- `NaiveTicks()` (70_reset_and_hazards.md R167). -/
def naiveTicks (s : State) : Nat := totalCost s.hist

/-- `OptimizedTicks()` (R168): 0 with no executed step, else the cost of the first step and the greatest cost for each
further one. -/
def optimizedTicks (s : State) : Nat :=
  let n := s.hist.length / 5
  if n = 0 then 0 else totalCost (s.hist.take 5) + (n - 1) * maxCost s.hist

end Sys2Proof.Machine
end

