-- ==== Sys2Proof/Machine/Step.lean ====
section
/-! DEFINITION. One step (40_execution_engine.md R92). -/

namespace Sys2Proof.Machine

/-- `Step()` (40_execution_engine.md R92): end check and fetch, decode, the instruction, then traces and pipeline
entries. `Continuing` is the next state; `Finished` and `FatalError` are faults (notes/assumptions/4.md, 5.md). -/
def step (s : State) : Host.Outcome State Fault Refusal :=
  match fetch s with
  | .stop r => .fault r
  | .word w s1 =>
    match decode w with
    | .rejected _ => .fault (.invalidOpcode s1)
    | .instr i => completing (record w i) (exec i s1)

/-- `s` with the instruction whose bits are `w` (numbered as spec/opcode_table.json numbers them; bits above `nbits` zero)
stored where `step` fetches its next instruction (notes/assumptions/6.md). -/
def State.withFetchWord (s : State) (nbits w : Nat) : State := placeAtFetch (tableWordBytes nbits w) s

end Sys2Proof.Machine
end

