-- ==== Sys2Proof/Machine/Transactions.lean ====
section
/-! DEFINITION. The host's transactions (60_exceptions.md R150), each atomic and issued one at a time. -/

namespace Sys2Proof.Machine

/-- The kinds of `FatalError` (40_execution_engine.md R82). -/
inductive ErrorKind where
  | invalidOpcode
  | addressOutOfRange
  deriving DecidableEq, Repr

/-- The tri-state outcome of `Step` (40_execution_engine.md R82). -/
inductive StepOutcome where
  | continuing
  | finished
  | fatalError (kind : ErrorKind)
  deriving DecidableEq, Repr

/-- The transactions of 60_exceptions.md R150. `load` is given the bytes and the declared length `L`. -/
inductive Transaction where
  | load (bytes : List Byte) (len : Nat)
  | step
  | reset
  | setReg (i : Nat) (v : Word)
  | setFlag (f : Char) (b : Bool)
  | readReg (i : Nat)
  | readFlag (f : Char)
  | videoSnapshot (maxLen : Nat)
  | romSnapshot (maxLen : Nat)
  | trace (n : Nat)
  | wordTrace (n : Nat)
  | naiveTicks
  | optimizedTicks
  deriving DecidableEq, Repr

/-- What a transaction answers the host. -/
inductive Answer where
  | done
  | loadError
  | outcome (o : StepOutcome)
  | word (v : Word)
  | flag (b : Bool)
  | bytes (l : List Byte)
  | trace (l : List TraceEntry)
  | wordTrace (l : List Word)
  | ticks (n : Nat)
  deriving DecidableEq, Repr

/-- A transaction's end: its answer and the state after it, or a refusal, which has no meaning and changes nothing
(60_exceptions.md R151). -/
inductive Response where
  | answered (a : Answer) (s : State)
  | refused (r : Refusal)
  deriving DecidableEq, Repr

/-- `Load(bytes, L)` (20_memory.md R59): too long for ROM is `LoadError` and changes nothing. -/
def hostLoad (bytes : List Byte) (len : Nat) (s : State) : Response :=
  if s.cfg.romSize < len then .answered .loadError s
  else if bytes.length < len then .refused (.imageTooShort bytes.length len)
  else .answered .done (loadImage (bytes.take len) s)

/-- `Step()` as the host sees it: the outcome and the state it leaves (60_exceptions.md R139). -/
def hostStep (s : State) : Response :=
  match Sys2Proof.Machine.step s with
  | .next s' => .answered (.outcome .continuing) s'
  | .fault .finished => .answered (.outcome .finished) s
  | .fault .addressOutOfRange => .answered (.outcome (.fatalError .addressOutOfRange)) s
  | .fault (.invalidOpcode after) => .answered (.outcome (.fatalError .invalidOpcode)) after
  | .refused r => .refused r

/-- `SetReg(i, v)` (60_exceptions.md R152). -/
def hostSetReg (i : Nat) (v : Word) (s : State) : Response :=
  if h : i < 8 then .answered .done (s.setReg ⟨i, h⟩ v) else .refused (.noSuchRegister i)

/-- `ReadReg(i)` (60_exceptions.md R150). -/
def hostReadReg (i : Nat) (s : State) : Response :=
  if h : i < 8 then .answered (.word (s.reg ⟨i, h⟩)) s else .refused (.noSuchRegister i)

/-- `SetFlag(f, b)` (60_exceptions.md R152). -/
def hostSetFlag (f : Char) (b : Bool) (s : State) : Response :=
  match setFlagNamed f b s with
  | some s' => .answered .done s'
  | none => .refused (.noSuchFlag f)

/-- `ReadFlag(f)` (60_exceptions.md R150). -/
def hostReadFlag (f : Char) (s : State) : Response :=
  match readFlagNamed f s with
  | some b => .answered (.flag b) s
  | none => .refused (.noSuchFlag f)

/-- One transaction of the host (60_exceptions.md R150). -/
def transact (t : Transaction) (s : State) : Response :=
  match t with
  | .load bytes len => hostLoad bytes len s
  | .step => hostStep s
  | .reset => .answered .done (hostReset s)
  | .setReg i v => hostSetReg i v s
  | .setFlag f b => hostSetFlag f b s
  | .readReg i => hostReadReg i s
  | .readFlag f => hostReadFlag f s
  | .videoSnapshot maxLen => .answered (.bytes (Sys2Proof.Machine.videoSnapshot s maxLen)) s
  | .romSnapshot maxLen => .answered (.bytes (Sys2Proof.Machine.romSnapshot s maxLen)) s
  | .trace n => .answered (.trace (lastEntries n s.itrace)) s
  | .wordTrace n => .answered (.wordTrace (lastEntries n s.wtrace)) s
  | .naiveTicks => .answered (.ticks (Sys2Proof.Machine.naiveTicks s)) s
  | .optimizedTicks => .answered (.ticks (Sys2Proof.Machine.optimizedTicks s)) s

end Sys2Proof.Machine
end

