-- ==== Sys2Proof/Safety.lean ====
section
/-! DEFINITION. What claims mean by a well-formed state, a safe step and a safe run. -/

namespace Sys2Proof.Machine

/-- The pipeline history of `k` executed steps (70_reset_and_hazards.md R166). -/
def histOfSteps (c : Config) (k : Nat) : List PipelineEntry := (List.replicate k (stepEntries c)).flatten

/-- A trace entry is what decoding its word gives (10_state.md R36). -/
def TraceEntry.Faithful (e : TraceEntry) : Prop :=
  ∃ i, decode e.word = .instr i ∧ e.mnemonic = i.mnemonic ∧ e.fields = i.fields

/-- The invariant of the machine: legal parameters (00_scope.md R15, R16); memory in canonical form and inside the
address space (10_state.md R31); `rom_len <= ROM_SIZE` (R32); a history of whole steps, one per traced word (R34, R35);
the two traces in step and faithful to the decoder (R36). -/
structure State.Inv (s : State) : Prop where
  cfg_wf : s.cfg.wf = true
  mem_wf : Memory.wf s.mem = true
  mem_inside : ∀ cell ∈ s.mem, cell.1 < s.cfg.size
  romLen_le : s.romLen ≤ s.cfg.romSize
  hist_eq : s.hist = histOfSteps s.cfg s.wtrace.length
  traces_agree : s.itrace.map (fun e => e.word) = s.wtrace
  itrace_faithful : ∀ e ∈ s.itrace, e.Faithful

/-- A safe step is one that continues or finds the program finished: no fatal error (60_exceptions.md R139). -/
def SafeStep (s : State) : Prop := (∃ s', step s = .next s') ∨ step s = .fault .finished

/-- A run of at most `k` steps meets no fatal error (70_reset_and_hazards.md R171). -/
def SafeRun : Nat → State → Prop
  | 0, _ => True
  | k + 1, s => step s = .fault .finished ∨ ∃ s', step s = .next s' ∧ SafeRun k s'

end Sys2Proof.Machine
end

