-- ==== Sys2Proof/Certificates/Slice0/Obligations.lean ====
section
/-! DEFINITION. The statements for the provers, and the few words they are written in. Values are written as natural
numbers, as the spec's pseudocode writes them (00_scope.md R18), not as the model's bit vectors. -/

namespace Sys2Proof.Vocabulary

open Sys2Proof Sys2Proof.Machine

/-- The word of a number taken mod 2^16 (10_state.md R21). -/
def u16 (n : Nat) : Word := BitVec.ofNat 16 (n % 65536)

/-- `v[15]` of a `u16` (00_scope.md R18). -/
def bit15 (n : Nat) : Bool := decide (32768 ≤ n)

/-- A `u16` read as a signed 16-bit integer. -/
def signed16 (n : Nat) : Int := if n < 32768 then (n : Int) else (n : Int) - 65536

/-- The integer is outside the signed 16-bit range. -/
def signedOverflow (x : Int) : Prop := x < -32768 ∨ 32767 < x

/-- The words that `mask` and `opcode` match are exactly those that decode to the mnemonic (30_encoding.md R73). -/
def EncodedAs (mask opcode : Word) (m : Mnemonic) : Prop :=
  ∀ w : Word, w &&& mask = opcode ↔ ∃ i, decode w = .instr i ∧ i.mnemonic = m

/-- The mode of a mode number (30_encoding.md R70). -/
def modes : List Mode :=
  [.direct, .deferred, .autoInc, .autoIncDeferred, .autoDec, .autoDecDeferred, .index, .indexDeferred]

/-- `o` is the operand with mode number `m` and register number `r`. -/
def IsOperand (o : Operand) (m r : Nat) : Prop := modes[m]? = some o.mode ∧ o.reg.val = r

/-- The word at `a`, as a number: `mem[a] + 256 * mem[a + 1]` (20_memory.md R41). -/
def wordAt (s : State) (a : Nat) : Nat := (s.mem.read a).toNat + 256 * (s.mem.read (a + 1)).toNat

/-- `0 <= a <= SIZE - 2` (20_memory.md R42). -/
def InBounds (s : State) (a : Int) : Prop := 0 ≤ a ∧ a ≤ (s.cfg.size : Int) - 2

/-- `EA(R, X)` (41_addressing_modes.md R103). -/
def indexSum (k : IndexArith) (r x : Nat) : Int :=
  match k with
  | .unsigned => (r : Int) + x
  | .wrap16 => (((r + x) % 65536 : Nat) : Int)
  | .signed => (r : Int) + signed16 x

/-- The registers that resolving `o` may write: the base register in modes 2 to 5, `r7` in modes 6 and 7
(41_addressing_modes.md R94). -/
def ResolutionWrites (o : Operand) (k : RegNum) : Prop :=
  ((o.mode = .autoInc ∨ o.mode = .autoIncDeferred ∨ o.mode = .autoDec ∨ o.mode = .autoDecDeferred) ∧ k = o.reg) ∨
  ((o.mode = .index ∨ o.mode = .indexDeferred) ∧ k = 7)

/-- Everything but registers, flags and memory is the same in both states. -/
def SameSurroundings (s t : State) : Prop :=
  t.cfg = s.cfg ∧ t.romLen = s.romLen ∧ t.hist = s.hist ∧ t.itrace = s.itrace ∧ t.wtrace = s.wtrace

/-- Every byte of memory reads the same in both states, but for the two bytes at `a`. -/
def SameBytesOutsideWord (s t : State) (a : Nat) : Prop := ∀ b, b ≠ a → b ≠ a + 1 → t.mem.read b = s.mem.read b

/-- `N` resolutions of one operand in a row, all of which succeed, leave this state. -/
def resolveTimes (o : Operand) : Nat → State → Option State
  | 0, s => some s
  | n + 1, s =>
    match (resolve o s).loc with
    | some _ => resolveTimes o n (resolve o s).state
    | none => none

/-- The two states agree on everything a step may read that is not accounting: registers, flags, memory, `rom_len`, the
sizes, `ROM_WRITE` and `INDEX_ARITH`. They may differ in stage costs, history and traces. -/
structure SameArchitecture (s t : State) : Prop where
  regs : s.regs = t.regs
  flags : s.flags = t.flags
  mem : s.mem = t.mem
  romLen : s.romLen = t.romLen
  ramSize : s.cfg.ramSize = t.cfg.ramSize
  videoSize : s.cfg.videoSize = t.cfg.videoSize
  romSize : s.cfg.romSize = t.cfg.romSize
  romWrite : s.cfg.romWrite = t.cfg.romWrite
  indexArith : s.cfg.indexArith = t.cfg.indexArith

/-- The cost of one executed step, `S` of 70_reset_and_hazards.md R167. -/
def stepCost (c : Config) : Nat := c.costFetch + c.costDecode + c.costExecute + 2 * c.costMemAccess

/-- The greatest stage cost. -/
def greatestCost (c : Config) : Nat := max (max c.costFetch c.costDecode) (max c.costExecute c.costMemAccess)

end Sys2Proof.Vocabulary

open Sys2Proof Sys2Proof.Machine Sys2Proof.Vocabulary

/-! ### Encoding and decoding -/

/-- Words of every family, decoded by hand from 30_encoding.md R73 and R63 to R67 (vectors of 95_test_vectors.md 2.1 and
2.3). -/
def Obligations.SampleWordsDecode : Prop :=
  decode 0x0000 = .instr .halt ∧
  decode 0x01FF = .instr (.br 255) ∧
  decode 0x8703 = .instr (.bcs 3) ∧
  decode 0x0A3F = .instr (.clr ⟨.indexDeferred, 7⟩) ∧
  decode 0x79FF = .instr (.xor 7 ⟨.indexDeferred, 7⟩) ∧
  decode 0x15C0 = .instr (.mov ⟨.autoInc, 7⟩ ⟨.direct, 0⟩) ∧
  decode 0xE000 = .instr (.sub ⟨.direct, 0⟩ ⟨.direct, 0⟩) ∧
  decode 0x0001 = .rejected .invalidOpcode

/-- 30_encoding.md R80, R81 against R71: no bit of an encoding is dropped, for every well-formed instruction and every
operand. -/
def Obligations.DecodeOfEncodeIsTheInstruction : Prop :=
  ∀ i : Instr, i.wellFormed = true → decode (encode i) = .instr i

/-- The other direction: what decodes is well-formed and encodes back to the word (30_encoding.md R63 to R67, R80, R81). -/
def Obligations.EncodeOfDecodeIsTheWord : Prop :=
  ∀ (w : Word) (i : Instr), decode w = .instr i → i.wellFormed = true ∧ encode i = w

/-- 30_encoding.md R71: decoding gives the first row of the table, in its order, whose masked word is the row's opcode, and
rejects a word that no row matches. And no word matches two rows (R72, decision D10), so the order decides nothing. -/
def Obligations.FirstMatchingRowDecodes : Prop :=
  ∀ w : Word,
    ((∀ d ∈ table, w &&& d.mask ≠ d.opcode) → decode w = .rejected .invalidOpcode) ∧
    (∀ (a : Nat) (d : Descriptor), table[a]? = some d → w &&& d.mask = d.opcode →
      (∀ (b : Nat) (e : Descriptor), b < a → table[b]? = some e → w &&& e.mask ≠ e.opcode) →
      ∃ i, decode w = .instr i ∧ i.mnemonic = d.mnemonic) ∧
    (∀ (a b : Nat) (d e : Descriptor), table[a]? = some d → table[b]? = some e →
      w &&& d.mask = d.opcode → w &&& e.mask = e.opcode → a = b)

/-- 30_encoding.md R74 (an inference of the spec from R71 and R73): the legal words, as ranges of numbers; every other
word is illegal. -/
def Obligations.IllegalWordsAreTheUnmatchedOnes : Prop :=
  ∀ w : Word, decode w = .rejected .invalidOpcode ↔
    ¬ (w.toNat = 0 ∨ (0x0100 ≤ w.toNat ∧ w.toNat < 0x0800) ∨ (0x0A00 ≤ w.toNat ∧ w.toNat < 0x0A40) ∨
       (0x0A80 ≤ w.toNat ∧ w.toNat < 0x0B40) ∨ (0x1000 ≤ w.toNat ∧ w.toNat < 0x7000) ∨
       (0x7800 ≤ w.toNat ∧ w.toNat < 0x7A00) ∨ (0x8000 ≤ w.toNat ∧ w.toNat < 0x8800) ∨
       (0xE000 ≤ w.toNat ∧ w.toNat < 0xF000))

/-- 30_encoding.md R63 to R67 (decision D11): the fields of every shape, as quotients and remainders of the word; XOR is the
one instruction of shape `DoubleReg` (R66). -/
def Obligations.FieldsOfEveryShape : Prop :=
  ∀ w : Word, ∃ (src dst : Operand) (reg : RegNum),
    IsOperand dst (w.toNat / 8 % 8) (w.toNat % 8) ∧
    IsOperand src (w.toNat / 512 % 8) (w.toNat / 64 % 8) ∧
    reg.val = w.toNat / 64 % 8 ∧
    extract .noOperand w = .noOperand ∧
    extract .single w = .single dst ∧
    extract .double w = .double src dst ∧
    extract .doubleReg w = .doubleReg reg dst ∧
    extract .branch w = .branch (u16 (w.toNat % 256)) ∧
    (∀ i, decode w = .instr i → i.fields = extract i.mnemonic.shape w) ∧
    (∀ m : Mnemonic, m.shape = .doubleReg ↔ m = .xor)

/-! ### Double-operand instructions: encoding, result and completion

Each is for every operand, every state and every pair of locations that the two resolutions give, source first
(40_execution_engine.md R87); `s2` is the state after both. What a failed resolution does is
`Obligations.FailedOperandSkipsTheEffect`. -/

/-- 42_double_operand.md R109 (decision D15). -/
def Obligations.MovResult : Prop :=
  EncodedAs 0xF000 0x1000 .mov ∧
  ∀ (src dst : Operand) (s s1 s2 : State) (ls ld : Location),
    resolve src s = ⟨some ls, s1⟩ → resolve dst s1 = ⟨some ld, s2⟩ →
    let v := (locRead s2 ls).toNat
    exec (.mov src dst) s = .next ((locWrite s2 ld (u16 v)).setFlags
      { n := bit15 v, z := decide (v = 0), v := false, c := s.flags.c })

/-- 42_double_operand.md R110 (decision D15): flags of source minus destination; the signed overflow and the borrow are
those of the integers. -/
def Obligations.CmpResult : Prop :=
  EncodedAs 0xF000 0x2000 .cmp ∧
  ∀ (src dst : Operand) (s s1 s2 : State) (ls ld : Location),
    resolve src s = ⟨some ls, s1⟩ → resolve dst s1 = ⟨some ld, s2⟩ →
    let a := (locRead s2 ls).toNat
    let d := (locRead s2 ld).toNat
    let t := (a + 65536 - d) % 65536
    let v := (bit15 a != bit15 d) && (bit15 t == bit15 d)
    exec (.cmp src dst) s = .next (s2.setFlags
      { n := bit15 t, z := decide (t = 0), v := v, c := decide (a < d) }) ∧
    (v = true ↔ signedOverflow (signed16 a - signed16 d))

/-- 42_double_operand.md R111 (decision D15). -/
def Obligations.BitResult : Prop :=
  EncodedAs 0xF000 0x3000 .bit ∧
  ∀ (src dst : Operand) (s s1 s2 : State) (ls ld : Location),
    resolve src s = ⟨some ls, s1⟩ → resolve dst s1 = ⟨some ld, s2⟩ →
    let t := (locRead s2 ls).toNat &&& (locRead s2 ld).toNat
    exec (.bit src dst) s = .next (s2.setFlags
      { n := bit15 t, z := decide (t = 0), v := false, c := s.flags.c })

/-- 42_double_operand.md R112 (decision D15): the 16-bit complement of the source ANDed into the destination. -/
def Obligations.BicResult : Prop :=
  EncodedAs 0xF000 0x4000 .bic ∧
  ∀ (src dst : Operand) (s s1 s2 : State) (ls ld : Location),
    resolve src s = ⟨some ls, s1⟩ → resolve dst s1 = ⟨some ld, s2⟩ →
    let r := (65535 - (locRead s2 ls).toNat) &&& (locRead s2 ld).toNat
    exec (.bic src dst) s = .next ((locWrite s2 ld (u16 r)).setFlags
      { n := bit15 r, z := decide (r = 0), v := false, c := s.flags.c })

/-- 42_double_operand.md R113 (decision D15). -/
def Obligations.BisResult : Prop :=
  EncodedAs 0xF000 0x5000 .bis ∧
  ∀ (src dst : Operand) (s s1 s2 : State) (ls ld : Location),
    resolve src s = ⟨some ls, s1⟩ → resolve dst s1 = ⟨some ld, s2⟩ →
    let r := (locRead s2 ls).toNat ||| (locRead s2 ld).toNat
    exec (.bis src dst) s = .next ((locWrite s2 ld (u16 r)).setFlags
      { n := bit15 r, z := decide (r = 0), v := false, c := s.flags.c })

/-- 42_double_operand.md R114 (decision D15): the sum mod 2^16; signed overflow and carry are those of the integers. -/
def Obligations.AddResult : Prop :=
  EncodedAs 0xF000 0x6000 .add ∧
  ∀ (src dst : Operand) (s s1 s2 : State) (ls ld : Location),
    resolve src s = ⟨some ls, s1⟩ → resolve dst s1 = ⟨some ld, s2⟩ →
    let a := (locRead s2 ls).toNat
    let d := (locRead s2 ld).toNat
    let r := (a + d) % 65536
    let v := (bit15 a == bit15 d) && (bit15 r != bit15 a)
    exec (.add src dst) s = .next ((locWrite s2 ld (u16 r)).setFlags
      { n := bit15 r, z := decide (r = 0), v := v, c := decide (65536 ≤ a + d) }) ∧
    (v = true ↔ signedOverflow (signed16 a + signed16 d))

/-- 42_double_operand.md R115 (decision D15): destination minus source. -/
def Obligations.SubResult : Prop :=
  EncodedAs 0xF000 0xE000 .sub ∧
  ∀ (src dst : Operand) (s s1 s2 : State) (ls ld : Location),
    resolve src s = ⟨some ls, s1⟩ → resolve dst s1 = ⟨some ld, s2⟩ →
    let a := (locRead s2 ls).toNat
    let d := (locRead s2 ld).toNat
    let r := (d + 65536 - a) % 65536
    let v := (bit15 a != bit15 d) && (bit15 r == bit15 a)
    exec (.sub src dst) s = .next ((locWrite s2 ld (u16 r)).setFlags
      { n := bit15 r, z := decide (r = 0), v := v, c := decide (d < a) }) ∧
    (v = true ↔ signedOverflow (signed16 d - signed16 a))

/-- 42_double_operand.md R116 (decisions D10, D15): the source is a register, read after the destination is resolved. -/
def Obligations.XorResult : Prop :=
  EncodedAs 0xFE00 0x7800 .xor ∧
  ∀ (reg : RegNum) (dst : Operand) (s s1 : State) (ld : Location),
    resolve dst s = ⟨some ld, s1⟩ →
    let r := (s1.reg reg).toNat ^^^ (locRead s1 ld).toNat
    exec (.xor reg dst) s = .next ((locWrite s1 ld (u16 r)).setFlags
      { n := bit15 r, z := decide (r = 0), v := false, c := s.flags.c })

/-! ### Single-operand instructions -/

/-- 43_single_operand.md R117 (decision D15). -/
def Obligations.ClrResult : Prop :=
  EncodedAs 0xFFC0 0x0A00 .clr ∧
  ∀ (dst : Operand) (s s1 : State) (ld : Location), resolve dst s = ⟨some ld, s1⟩ →
    exec (.clr dst) s = .next ((locWrite s1 ld (u16 0)).setFlags { n := false, z := true, v := false, c := false })

/-- 43_single_operand.md R118 (decision D15): V is the signed overflow of the increment, C is kept. -/
def Obligations.IncResult : Prop :=
  EncodedAs 0xFFC0 0x0A80 .inc ∧
  ∀ (dst : Operand) (s s1 : State) (ld : Location), resolve dst s = ⟨some ld, s1⟩ →
    let d := (locRead s1 ld).toNat
    let r := (d + 1) % 65536
    exec (.inc dst) s = .next ((locWrite s1 ld (u16 r)).setFlags
      { n := bit15 r, z := decide (r = 0), v := decide (d = 0x7FFF), c := s.flags.c }) ∧
    (d = 0x7FFF ↔ signedOverflow (signed16 d + 1))

/-- 43_single_operand.md R119 (decision D15). -/
def Obligations.DecResult : Prop :=
  EncodedAs 0xFFC0 0x0AC0 .dec ∧
  ∀ (dst : Operand) (s s1 : State) (ld : Location), resolve dst s = ⟨some ld, s1⟩ →
    let d := (locRead s1 ld).toNat
    let r := (d + 65535) % 65536
    exec (.dec dst) s = .next ((locWrite s1 ld (u16 r)).setFlags
      { n := bit15 r, z := decide (r = 0), v := decide (d = 0x8000), c := s.flags.c }) ∧
    (d = 0x8000 ↔ signedOverflow (signed16 d - 1))

/-- 43_single_operand.md R120 (decision D15). -/
def Obligations.NegResult : Prop :=
  EncodedAs 0xFFC0 0x0B00 .neg ∧
  ∀ (dst : Operand) (s s1 : State) (ld : Location), resolve dst s = ⟨some ld, s1⟩ →
    let d := (locRead s1 ld).toNat
    let r := (65536 - d) % 65536
    exec (.neg dst) s = .next ((locWrite s1 ld (u16 r)).setFlags
      { n := bit15 r, z := decide (r = 0), v := decide (r = 0x8000), c := decide (r ≠ 0) }) ∧
    (r = 0x8000 ↔ signedOverflow (- signed16 d))

/-! ### HALT, branches and control transfer -/

/-- 44_halt_and_branches.md R121 (decision D25): HALT is the zero word, changes nothing and completes; and the scenario
the rule quotes: alone in ROM after a reset, one step moves `pc` past it with one trace entry and both tick totals
grown, and the next step, where `END` is a 16-bit address, is `Finished`. -/
def Obligations.HaltHasNoEffect : Prop :=
  EncodedAs 0xFFFF 0x0000 .halt ∧
  (∀ s : State, exec .halt s = .next s) ∧
  ∀ s : State, s.cfg.wf = true → Memory.wf s.mem = true →
    let b := setPcToRom (loadImage [0, 0] (hostReset s))
    ∃ t : State, step b = .next t ∧ t.pc = u16 (s.cfg.romBase + 2) ∧
      t.itrace = [⟨0, .halt, .noOperand⟩] ∧ t.wtrace = [0] ∧
      naiveTicks b < naiveTicks t ∧ optimizedTicks b < optimizedTicks t ∧
      (s.cfg.romBase + 2 < 65536 → step t = .fault .finished)

/-- 44_halt_and_branches.md R122 (decision D13), R124 to R130 (decision D14): the branches of the lower half, taken by
`2 * off` mod 2^16 exactly on their conditions; a branch not taken changes nothing. -/
def Obligations.LowerBranchResults : Prop :=
  EncodedAs 0xFF00 0x0100 .br ∧ EncodedAs 0xFF00 0x0200 .bne ∧ EncodedAs 0xFF00 0x0300 .beq ∧
  EncodedAs 0xFF00 0x0400 .bge ∧ EncodedAs 0xFF00 0x0500 .blt ∧ EncodedAs 0xFF00 0x0600 .bgt ∧
  EncodedAs 0xFF00 0x0700 .ble ∧
  ∀ (off : Word) (s : State),
    let taken := s.setPc (u16 (s.pc.toNat + 2 * off.toNat))
    exec (.br off) s = .next taken ∧
    exec (.bne off) s = .next (if s.flags.z = false then taken else s) ∧
    exec (.beq off) s = .next (if s.flags.z = true then taken else s) ∧
    exec (.bge off) s = .next (if s.flags.n = s.flags.v then taken else s) ∧
    exec (.blt off) s = .next (if s.flags.n ≠ s.flags.v then taken else s) ∧
    exec (.bgt off) s = .next (if s.flags.z = false ∧ s.flags.n = s.flags.v then taken else s) ∧
    exec (.ble off) s = .next (if s.flags.z = true ∨ s.flags.n ≠ s.flags.v then taken else s)

/-- 44_halt_and_branches.md R122 (decision D13), R131 to R138 (decision D14): the branches of the upper half. -/
def Obligations.UpperBranchResults : Prop :=
  EncodedAs 0xFF00 0x8000 .bpl ∧ EncodedAs 0xFF00 0x8100 .bmi ∧ EncodedAs 0xFF00 0x8200 .bhi ∧
  EncodedAs 0xFF00 0x8300 .blos ∧ EncodedAs 0xFF00 0x8400 .bvc ∧ EncodedAs 0xFF00 0x8500 .bvs ∧
  EncodedAs 0xFF00 0x8600 .bcc ∧ EncodedAs 0xFF00 0x8700 .bcs ∧
  ∀ (off : Word) (s : State),
    let taken := s.setPc (u16 (s.pc.toNat + 2 * off.toNat))
    exec (.bpl off) s = .next (if s.flags.n = false then taken else s) ∧
    exec (.bmi off) s = .next (if s.flags.n = true then taken else s) ∧
    exec (.bhi off) s = .next (if s.flags.c = false ∧ s.flags.z = false then taken else s) ∧
    exec (.blos off) s = .next (if s.flags.c = true ∨ s.flags.z = true then taken else s) ∧
    exec (.bvc off) s = .next (if s.flags.v = false then taken else s) ∧
    exec (.bvs off) s = .next (if s.flags.v = true then taken else s) ∧
    exec (.bcc off) s = .next (if s.flags.c = false then taken else s) ∧
    exec (.bcs off) s = .next (if s.flags.c = true then taken else s)

/-- What 44_halt_and_branches.md R122 (decision D13) says of every branch: its target is 0 to 510 bytes past the next word,
forward but for the wrap mod 2^16; an even `pc` stays even; offset 0 does nothing. -/
def Obligations.BranchesGoForwardOnly : Prop :=
  ∀ (i : Instr) (off : Word) (s t : State),
    i.wellFormed = true → i.fields = .branch off → exec i s = .next t →
      (t = s ∨ t.pc.toNat = (s.pc.toNat + 2 * off.toNat) % 65536) ∧
      (s.pc.toNat + 510 < 65536 → s.pc.toNat ≤ t.pc.toNat ∧ t.pc.toNat ≤ s.pc.toNat + 510) ∧
      (s.pc.toNat % 2 = 0 → t.pc.toNat % 2 = 0) ∧
      (off = 0 → t = s)

/-- 44_halt_and_branches.md R123 (an inference of the spec from R109 and R95): an instruction whose destination is `r7`
itself transfers control to the value it writes, unmasked; the flags are those of the value. Stated for MOV, ADD and CLR,
the rule's examples. -/
def Obligations.WritingR7TransfersControl : Prop :=
  (∀ (src : Operand) (s s1 : State) (ls : Location), resolve src s = ⟨some ls, s1⟩ →
    ∃ t, exec (.mov src ⟨.direct, 7⟩) s = .next t ∧ t.pc = locRead s1 ls ∧ t.mem = s.mem) ∧
  (∀ (src : Operand) (s s1 : State) (ls : Location), resolve src s = ⟨some ls, s1⟩ →
    ∃ t, exec (.add src ⟨.direct, 7⟩) s = .next t ∧
      t.pc.toNat = (s1.pc.toNat + (locRead s1 ls).toNat) % 65536 ∧ t.mem = s.mem) ∧
  (∀ s : State, ∃ t, exec (.clr ⟨.direct, 7⟩) s = .next t ∧ t.pc = 0 ∧ t.mem = s.mem)

/-! ### Resolution, its failure and its order -/

/-- 40_execution_engine.md R89: if an operand of an instruction with operands does not resolve, the step of that
instruction completes with its effect skipped: the state is the one the resolutions leave, in which no flag and no byte
of memory has changed. A `Double` destination is resolved in the state the source left even when the source failed. The
failure is not reported: every step whose word decodes is `Continuing`, with its trace and pipeline entries. -/
def Obligations.FailedOperandSkipsTheEffect : Prop :=
  ∀ (i : Instr) (s : State),
    (∀ src dst, i.fields = .double src dst →
      ((resolve src s).loc = none ∨ (resolve dst (resolve src s).state).loc = none) →
      ∃ t, exec i s = .next t ∧ t = (resolve dst (resolve src s).state).state ∧ t.flags = s.flags ∧ t.mem = s.mem) ∧
    (∀ dst, i.fields = .single dst → (resolve dst s).loc = none →
      ∃ t, exec i s = .next t ∧ t = (resolve dst s).state ∧ t.flags = s.flags ∧ t.mem = s.mem) ∧
    (∀ reg dst, i.fields = .doubleReg reg dst → (resolve dst s).loc = none →
      ∃ t, exec i s = .next t ∧ t = (resolve dst s).state ∧ t.flags = s.flags ∧ t.mem = s.mem) ∧
    (s.cfg.romBase ≤ s.pc.toNat → s.pc.toNat + 2 ≤ s.cfg.romBase + s.romLen →
      decode (u16 (wordAt s s.pc.toNat)) = .instr i →
      ∃ t, hostStep s = .answered (.outcome .continuing) t ∧ t.itrace.length = s.itrace.length + 1 ∧
        t.wtrace.length = s.wtrace.length + 1 ∧ t.hist.length = s.hist.length + 5)

/-- 41_addressing_modes.md R95, R96: modes 0 and 1. -/
def Obligations.DirectAndDeferredModes : Prop :=
  ∀ (r : RegNum) (s : State),
    let a := (s.reg r).toNat
    resolve ⟨.direct, r⟩ s = ⟨some (.reg r), s⟩ ∧
    (InBounds s a → resolve ⟨.deferred, r⟩ s = ⟨some (.mem a), s⟩) ∧
    (¬ InBounds s a → resolve ⟨.deferred, r⟩ s = ⟨none, s⟩)

/-- 41_addressing_modes.md R97 (decision D34), R98: modes 2 and 3. The register grows by 2 mod 2^16 on success and is
unchanged on failure. -/
def Obligations.AutoIncrementModes : Prop :=
  ∀ (r : RegNum) (s : State),
    let a := (s.reg r).toNat
    let p := wordAt s a
    let bumped := s.setReg r (u16 (a + 2))
    (InBounds s a → resolve ⟨.autoInc, r⟩ s = ⟨some (.mem a), bumped⟩) ∧
    (¬ InBounds s a → resolve ⟨.autoInc, r⟩ s = ⟨none, s⟩) ∧
    (InBounds s a → InBounds s p → resolve ⟨.autoIncDeferred, r⟩ s = ⟨some (.mem p), bumped⟩) ∧
    (¬ InBounds s a ∨ ¬ InBounds s p → resolve ⟨.autoIncDeferred, r⟩ s = ⟨none, s⟩)

/-- 41_addressing_modes.md R99 (decisions D20, D21), R100 (decision D21): modes 4 and 5. A register below 2 fails, and
every failure leaves the state as it was before the resolution. -/
def Obligations.AutoDecrementModes : Prop :=
  ∀ (r : RegNum) (s : State),
    let x := (s.reg r).toNat
    let a := x - 2
    let p := wordAt s a
    let lowered := s.setReg r (u16 (x - 2))
    (2 ≤ x → InBounds s a → resolve ⟨.autoDec, r⟩ s = ⟨some (.mem a), lowered⟩) ∧
    (x < 2 ∨ ¬ InBounds s a → resolve ⟨.autoDec, r⟩ s = ⟨none, s⟩) ∧
    (2 ≤ x → InBounds s a → InBounds s p → resolve ⟨.autoDecDeferred, r⟩ s = ⟨some (.mem p), lowered⟩) ∧
    (x < 2 ∨ ¬ InBounds s a ∨ ¬ InBounds s p → resolve ⟨.autoDecDeferred, r⟩ s = ⟨none, s⟩)

/-- 41_addressing_modes.md R101, R102 (decisions D17, D19), R103 (decision D18): modes 6 and 7 under every
`INDEX_ARITH`. The index word is the word at `pc`, `pc` moves past it and stays there when the address fails, and the
base is read after the move. -/
def Obligations.IndexModes : Prop :=
  ∀ (r : RegNum) (s : State),
    let i := s.pc.toNat
    let moved := s.setPc (u16 (i + 2))
    let e := indexSum s.cfg.indexArith (moved.reg r).toNat (wordAt s i)
    let p := wordAt s e.toNat
    (¬ InBounds s i →
      resolve ⟨.index, r⟩ s = ⟨none, s⟩ ∧ resolve ⟨.indexDeferred, r⟩ s = ⟨none, s⟩) ∧
    (InBounds s i → ¬ InBounds s e →
      resolve ⟨.index, r⟩ s = ⟨none, moved⟩ ∧ resolve ⟨.indexDeferred, r⟩ s = ⟨none, moved⟩) ∧
    (InBounds s i → InBounds s e → resolve ⟨.index, r⟩ s = ⟨some (.mem e.toNat), moved⟩) ∧
    (InBounds s i → InBounds s e → InBounds s p → resolve ⟨.indexDeferred, r⟩ s = ⟨some (.mem p), moved⟩) ∧
    (InBounds s i → InBounds s e → ¬ InBounds s p → resolve ⟨.indexDeferred, r⟩ s = ⟨none, moved⟩)

/-- 41_addressing_modes.md R94: a location is a register or a valid word address; a resolution writes only the register
it names (modes 2 to 5) or `pc` (modes 6 and 7), never memory or flags. -/
def Obligations.ResolutionFootprint : Prop :=
  ∀ (o : Operand) (s : State),
    let t := (resolve o s).state
    t.mem = s.mem ∧ t.flags = s.flags ∧ SameSurroundings s t ∧
    (∀ k, ¬ ResolutionWrites o k → t.reg k = s.reg k) ∧
    (∀ k, (resolve o s).loc = some (.reg k) → o.mode = .direct ∧ k = o.reg) ∧
    (∀ a, (resolve o s).loc = some (.mem a) → InBounds s a ∧ o.mode ≠ .direct)

/-- 41_addressing_modes.md R107 (decisions D16, D17): what a failed resolution leaves. Mode 0 never fails; modes 1 to 5
leave the state as it was; modes 6 and 7 leave it as it was, or with `pc` past the index word they read. In a `Double`
step nothing else is rolled back: the state left is the one of the destination's resolution in the state the source's
left, whichever of the two failed. -/
def Obligations.FailedResolutionRollsBack : Prop :=
  (∀ (o : Operand) (s : State), (resolve o s).loc = none →
    o.mode ≠ .direct ∧
    (o.mode ≠ .index → o.mode ≠ .indexDeferred → (resolve o s).state = s) ∧
    (o.mode = .index ∨ o.mode = .indexDeferred →
      (¬ InBounds s s.pc.toNat → (resolve o s).state = s) ∧
      (InBounds s s.pc.toNat → (resolve o s).state = s.setPc (u16 (s.pc.toNat + 2))))) ∧
  ∀ (src dst : Operand) (s : State),
    (resolveDouble src dst s).2 = (resolve dst (resolve src s).state).state ∧
    ((resolveDouble src dst s).1 = none ↔
      (resolve src s).loc = none ∨ (resolve dst (resolve src s).state).loc = none)

/-- 41_addressing_modes.md R106 (an inference of the spec from R97 to R100): after `n` successful resolutions in a row in
mode 2 or 3 the register is its first value plus `2 * n` mod 2^16, in mode 4 or 5 its first value minus `2 * n`, never
below 0. -/
def Obligations.RepeatedAutoResolutionsMoveByTwo : Prop :=
  ∀ (r : RegNum) (n : Nat) (s t : State),
    (resolveTimes ⟨.autoInc, r⟩ n s = some t ∨ resolveTimes ⟨.autoIncDeferred, r⟩ n s = some t →
      t = s.setReg r (u16 ((s.reg r).toNat + 2 * n))) ∧
    (resolveTimes ⟨.autoDec, r⟩ n s = some t ∨ resolveTimes ⟨.autoDecDeferred, r⟩ n s = some t →
      2 * n ≤ (s.reg r).toNat ∧ t = s.setReg r (u16 ((s.reg r).toNat - 2 * n)))

/-- Decision D18 of 92_eei_decisions.md: where the sum stays a valid address and the index word is at most `0x7FFF`, the
three readings of `INDEX_ARITH` resolve an index operand alike. -/
def Obligations.IndexReadingsAgreeInRange : Prop :=
  ∀ (r : RegNum) (s : State) (k : IndexArith),
    let moved := s.setPc (u16 (s.pc.toNat + 2))
    let x := wordAt s s.pc.toNat
    let e := (moved.reg r).toNat + x
    s.cfg.wf = true → InBounds s s.pc.toNat → InBounds s e → x ≤ 0x7FFF →
      (resolve ⟨.index, r⟩ { s with cfg := { s.cfg with indexArith := k } }).loc = some (.mem e)

/-- 40_execution_engine.md R93 (an inference of the spec from R87, R88 and R94): the effect reads its operands after both
are resolved. The rule's examples, for every register and every state in which they resolve. -/
def Obligations.EffectSeesResolutionSideEffects : Prop :=
  ∀ (r : RegNum) (s : State), let a := (s.reg r).toNat
    (InBounds s a → ∃ t, exec (.mov ⟨.direct, r⟩ ⟨.autoInc, r⟩) s = .next t ∧
      t.reg r = u16 (a + 2) ∧ t.mem = (memWrite (s.setReg r (u16 (a + 2))) a (u16 (a + 2))).mem) ∧
    (2 ≤ a → InBounds s ((a : Int) - 2) → ∃ t, exec (.mov ⟨.direct, r⟩ ⟨.autoDec, r⟩) s = .next t ∧
      t.reg r = u16 (a - 2) ∧ t.mem = (memWrite (s.setReg r (u16 (a - 2))) (a - 2) (u16 (a - 2))).mem) ∧
    (InBounds s a → ∃ t, exec (.add ⟨.autoInc, r⟩ ⟨.direct, r⟩) s = .next t ∧
      t.reg r = u16 (a + 2 + (memRead (s.setReg r (u16 (a + 2))) a).toNat) ∧ t.mem = s.mem) ∧
    (InBounds s a → ∃ t, exec (.xor r ⟨.autoInc, r⟩) s = .next t ∧ t.reg r = u16 (a + 2) ∧
      t.mem = (memWrite (s.setReg r (u16 (a + 2))) a (u16 (((a + 2) % 65536) ^^^ wordAt s a))).mem)

/-! ### Frames -/

/-- What MOV, BIC, BIS, ADD, SUB and XOR leave unchanged. Registers: all but the destination register of mode 0 and those
the resolutions of the operands write (modes 2 to 5: the operand's register; modes 6 and 7: `r7`). Flags: C, but for ADD
and SUB; all four when an operand does not resolve. Memory: all but the word at the address the destination resolves to,
in the state the source left; all of it when the destination is a register or an operand does not resolve. -/
def Obligations.StoringDoubleFrame : Prop :=
  (∀ (i : Instr) (src dst : Operand) (s t : State),
    i = .mov src dst ∨ i = .bic src dst ∨ i = .bis src dst ∨ i = .add src dst ∨ i = .sub src dst →
    exec i s = .next t →
    let rs := resolve src s
    let rd := resolve dst rs.state
    SameSurroundings s t ∧
    (∀ k, ¬ ResolutionWrites src k → ¬ ResolutionWrites dst k → ¬ (dst.mode = .direct ∧ k = dst.reg) →
      t.reg k = s.reg k) ∧
    (i.mnemonic ≠ .add → i.mnemonic ≠ .sub → t.flags.c = s.flags.c) ∧
    (rs.loc = none ∨ rd.loc = none → t.flags = s.flags ∧ t.mem = s.mem) ∧
    (∀ k, rd.loc = some (.reg k) → t.mem = s.mem) ∧
    (∀ a, rd.loc = some (.mem a) → SameBytesOutsideWord s t a)) ∧
  (∀ (reg : RegNum) (dst : Operand) (s t : State), exec (.xor reg dst) s = .next t →
    let rd := resolve dst s
    SameSurroundings s t ∧
    (∀ k, ¬ ResolutionWrites dst k → ¬ (dst.mode = .direct ∧ k = dst.reg) → t.reg k = s.reg k) ∧
    t.flags.c = s.flags.c ∧
    (rd.loc = none → t.flags = s.flags ∧ t.mem = s.mem) ∧
    (∀ k, rd.loc = some (.reg k) → t.mem = s.mem) ∧
    (∀ a, rd.loc = some (.mem a) → SameBytesOutsideWord s t a))

/-- What CMP and BIT leave unchanged: all of memory, and every register but those the resolutions of the operands write;
BIT leaves C; both leave all flags when an operand does not resolve. -/
def Obligations.ComparingDoubleFrame : Prop :=
  ∀ (i : Instr) (src dst : Operand) (s t : State),
    i = .cmp src dst ∨ i = .bit src dst → exec i s = .next t →
    SameSurroundings s t ∧
    t.mem = s.mem ∧
    (∀ k, ¬ ResolutionWrites src k → ¬ ResolutionWrites dst k → t.reg k = s.reg k) ∧
    (i.mnemonic = .bit → t.flags.c = s.flags.c) ∧
    ((resolve src s).loc = none ∨ (resolve dst (resolve src s).state).loc = none → t.flags = s.flags)

/-- What CLR, INC, DEC and NEG leave unchanged: every register but the destination of mode 0 and the one the resolution
writes; C, for INC and DEC; all but the word at the address the destination resolves to. -/
def Obligations.SingleFrame : Prop :=
  ∀ (i : Instr) (dst : Operand) (s t : State),
    i = .clr dst ∨ i = .inc dst ∨ i = .dec dst ∨ i = .neg dst → exec i s = .next t →
    let rd := resolve dst s
    SameSurroundings s t ∧
    (∀ k, ¬ ResolutionWrites dst k → ¬ (dst.mode = .direct ∧ k = dst.reg) → t.reg k = s.reg k) ∧
    (i = .inc dst ∨ i = .dec dst → t.flags.c = s.flags.c) ∧
    (rd.loc = none → t.flags = s.flags ∧ t.mem = s.mem) ∧
    (∀ k, rd.loc = some (.reg k) → t.mem = s.mem) ∧
    (∀ a, rd.loc = some (.mem a) → SameBytesOutsideWord s t a)

/-- What HALT and the branches leave unchanged: memory, flags and every register but `r7` (10_state.md R29). -/
def Obligations.HaltAndBranchFrame : Prop :=
  ∀ (i : Instr) (s t : State), i.fields = .noOperand ∨ (∃ off, i.fields = .branch off) → exec i s = .next t →
    SameSurroundings s t ∧ t.mem = s.mem ∧ t.flags = s.flags ∧ ∀ k, k ≠ 7 → t.reg k = s.reg k

/-! ### Memory -/

/-- 20_memory.md R44, R45 (decision D7), R41 (decision D1), R43 (decision D4): a word reads as its two bytes, low byte
first, at any address, odd or even; a CPU write puts the two bytes there, but for a ROM byte under `Drop`, and leaves
every other byte alone. Memory is taken in its canonical form. -/
def Obligations.WordAccessIsLittleEndian : Prop :=
  ∀ (s : State) (a : Nat) (v : Word), Memory.wf s.mem = true →
    (memRead s a).toNat = wordAt s a ∧
    ∀ b : Nat, ((memWrite s a v).mem.read b).toNat =
      if s.cfg.romBase ≤ b ∧ s.cfg.romWrite = .drop then (s.mem.read b).toNat
      else if b = a then v.toNat % 256
      else if b = a + 1 then v.toNat / 256
      else (s.mem.read b).toNat

/-- 20_memory.md R46: every address of the space lies in exactly one region, at its offset from the region's base, and no
other address lies in any. -/
def Obligations.RegionsPartitionTheSpace : Prop :=
  ∀ (c : Config) (b : Nat),
    (b < c.ramSize → region c b = some (.ram b)) ∧
    (c.videoBase ≤ b → b < c.romBase → region c b = some (.video (b - c.videoBase))) ∧
    (c.romBase ≤ b → b < c.size → region c b = some (.rom (b - c.romBase))) ∧
    (c.size ≤ b ↔ region c b = none)

/-! ### The step -/

/-- 40_execution_engine.md R83 (decisions D6, D36): `Finished` exactly when `pc = END` as integers, with nothing changed
as the host sees it; with `END = 65536` it never happens, the fetch at `0xFFFE` wraps `pc` to 0, and the step from there
fails its fetch, or fetches the word at 0 again when `ROM_BASE = 0`. -/
def Obligations.FinishedExactlyAtEnd : Prop :=
  ∀ s : State,
    (step s = .fault .finished ↔ s.pc.toNat = s.cfg.romBase + s.romLen) ∧
    (s.pc.toNat = s.cfg.romBase + s.romLen → hostStep s = .answered (.outcome .finished) s) ∧
    (s.cfg.romBase + s.romLen = 65536 → step s ≠ .fault .finished ∧
      (s.pc = 0xFFFE → s.cfg.romBase ≤ 0xFFFE → fetch s = .word (u16 (wordAt s 0xFFFE)) (s.setPc 0)) ∧
      (s.pc = 0 → 0 < s.cfg.romBase → step s = .fault .addressOutOfRange) ∧
      (s.pc = 0 → s.cfg.romBase = 0 → fetch s = .word (u16 (wordAt s 0)) (s.setPc 2)))

/-- 60_exceptions.md R141, with the fetch window of 20_memory.md R47 (decision D5): the fetch outcome
`FatalError(AddressOutOfRange)` arises exactly when `pc` is outside `[ROM_BASE, END - 2]` and is not `END`; the state is
unchanged, so stepping again gives the same outcome. -/
def Obligations.FetchOutsideWindowIsFatal : Prop :=
  ∀ s : State,
    (step s = .fault .addressOutOfRange ↔
      s.pc.toNat ≠ s.cfg.romBase + s.romLen ∧
      ¬ (s.cfg.romBase ≤ s.pc.toNat ∧ (s.pc.toNat : Int) ≤ (s.cfg.romBase + s.romLen : Nat) - 2)) ∧
    (step s = .fault .addressOutOfRange →
      hostStep s = .answered (.outcome (.fatalError .addressOutOfRange)) s)

/-- 60_exceptions.md R140, 40_execution_engine.md R85 (decision D24): every illegal word, and nothing else, gives
`FatalError(InvalidOpcode)`; `pc` has moved past the bad word and nothing else has changed, and the host may go on from
that state. -/
def Obligations.InvalidOpcodeMovesPcOnly : Prop :=
  ∀ s t : State,
    (step s = .fault (.invalidOpcode t) ↔
      s.cfg.romBase ≤ s.pc.toNat ∧ s.pc.toNat + 2 ≤ s.cfg.romBase + s.romLen ∧
      decode (u16 (wordAt s s.pc.toNat)) = .rejected .invalidOpcode ∧ t = s.setPc (u16 (s.pc.toNat + 2))) ∧
    (step s = .fault (.invalidOpcode t) →
      hostStep s = .answered (.outcome (.fatalError .invalidOpcode)) t)

/-- 40_execution_engine.md R92: when the word at `pc`, in the fetch window, decodes to `i`, the step is `exec i` in the
state with `pc` past the word, and a next state of it gets its trace and pipeline entries. -/
def Obligations.StepRunsTheDecodedInstruction : Prop :=
  ∀ (s : State) (i : Instr),
    s.cfg.romBase ≤ s.pc.toNat → s.pc.toNat + 2 ≤ s.cfg.romBase + s.romLen →
    decode (u16 (wordAt s s.pc.toNat)) = .instr i →
    ∃ t, exec i (s.setPc (u16 (s.pc.toNat + 2))) = .next t ∧
      step s = .next
        { t with
          itrace := t.itrace ++ [⟨u16 (wordAt s s.pc.toNat), i.mnemonic, i.fields⟩]
          wtrace := t.wtrace ++ [u16 (wordAt s s.pc.toNat)]
          hist := t.hist ++ [⟨.fetch, t.cfg.costFetch⟩, ⟨.decode, t.cfg.costDecode⟩, ⟨.execute, t.cfg.costExecute⟩,
            ⟨.memAccess, t.cfg.costMemAccess⟩, ⟨.memAccess, t.cfg.costMemAccess⟩] }

/-- 60_exceptions.md R144 (an inference of the spec from R92): the checks of a step in their order, the first that applies
deciding the outcome: `pc = END` is `Finished`, whatever lies there; then a fetch outside the window is
`FatalError(AddressOutOfRange)`; then an illegal word is `FatalError(InvalidOpcode)`; else the step continues, whatever the
operands. So a step continues exactly when the fetched word is legal, and is never refused. -/
def Obligations.StepOutcomePriority : Prop :=
  ∀ s : State,
    let w := u16 (wordAt s s.pc.toNat)
    let atEnd := s.pc.toNat = s.cfg.romBase + s.romLen
    let fetchable := s.cfg.romBase ≤ s.pc.toNat ∧ s.pc.toNat + 2 ≤ s.cfg.romBase + s.romLen
    (atEnd → step s = .fault .finished) ∧
    (¬ atEnd → ¬ fetchable → step s = .fault .addressOutOfRange) ∧
    (¬ atEnd → fetchable → decode w = .rejected .invalidOpcode →
      step s = .fault (.invalidOpcode (s.setPc (u16 (s.pc.toNat + 2))))) ∧
    (¬ atEnd → fetchable → ∀ i, decode w = .instr i → ∃ t, step s = .next t) ∧
    ((∃ t, step s = .next t) ↔ fetchable ∧ ∃ i, decode w = .instr i) ∧
    ((∃ r, step s = .fault r) ↔ ¬ fetchable ∨ decode w = .rejected .invalidOpcode) ∧
    (∀ r, step s ≠ .refused r) ∧
    (step s = .fault .finished → ¬ fetchable)

/-- 40_execution_engine.md R90 (decision D29), R91 (decision D22), 70_reset_and_hazards.md R166 (decisions D22, D24): a
continuing step appends one entry to each trace and five to the history, with costs by tag, whether or not the effect
ran, and changes neither the parameters nor `rom_len`. A step that does not continue appends nothing: what the host is left
with has the same history and traces. -/
def Obligations.ContinuingStepAppendsItsEntries : Prop :=
  ∀ s : State,
    (∀ t, step s = .next t → ∃ i,
      let w := u16 (wordAt s s.pc.toNat)
      decode w = .instr i ∧
      t.itrace = s.itrace ++ [⟨w, i.mnemonic, i.fields⟩] ∧
      t.wtrace = s.wtrace ++ [w] ∧
      t.hist = s.hist ++ [⟨.fetch, s.cfg.costFetch⟩, ⟨.decode, s.cfg.costDecode⟩, ⟨.execute, s.cfg.costExecute⟩,
        ⟨.memAccess, s.cfg.costMemAccess⟩, ⟨.memAccess, s.cfg.costMemAccess⟩] ∧
      t.cfg = s.cfg ∧ t.romLen = s.romLen) ∧
    (∀ o t, o ≠ .continuing → hostStep s = .answered (.outcome o) t → SameSurroundings s t)

/-- Every step keeps the invariant, from every state that meets it: a continuing step, and the state an illegal word
leaves. -/
def Obligations.EveryStepKeepsTheInvariant : Prop :=
  ∀ s : State, s.Inv → (∀ t, step s = .next t → t.Inv) ∧ (∀ t, step s = .fault (.invalidOpcode t) → t.Inv)

/-- The reset state meets the invariant. Its parameters and its RAM and ROM bytes are the model's choices
(notes/assumptions/2.md, 3.md). -/
def Obligations.ResetStateMeetsTheInvariant : Prop := State.reset.Inv

/-- Every transaction of the host keeps the invariant. -/
def Obligations.EveryTransactionKeepsTheInvariant : Prop :=
  ∀ (x : Transaction) (a : Answer) (s t : State), s.Inv → transact x s = .answered a t → t.Inv

/-- 70_reset_and_hazards.md R165: nothing architectural reads the accumulator. Two machines that differ only in stage
costs, history and traces make the same step: both continue or stop for the same reason, and differ only so
afterwards. -/
def Obligations.AccountingIsNeverRead : Prop :=
  ∀ s t : State, SameArchitecture s t →
    (∀ s', step s = .next s' → ∃ t', step t = .next t' ∧ SameArchitecture s' t') ∧
    (step s = .fault .finished → step t = .fault .finished) ∧
    (step s = .fault .addressOutOfRange → step t = .fault .addressOutOfRange) ∧
    (∀ s', step s = .fault (.invalidOpcode s') → ∃ t', step t = .fault (.invalidOpcode t') ∧ SameArchitecture s' t')

/-- 70_reset_and_hazards.md R167, R169 (inferences of the spec from R166 and R168): after `K` executed steps, the naive
total is `K * S`, the optimized total `S` and the greatest cost for each further step; they are equal after one step, and
the optimized one is smaller after more. -/
def Obligations.TickTotalsAfterKSteps : Prop :=
  ∀ s : State, s.Inv →
    let k := s.wtrace.length
    naiveTicks s = k * stepCost s.cfg ∧
    (k = 0 → optimizedTicks s = 0) ∧
    (0 < k → optimizedTicks s = stepCost s.cfg + (k - 1) * greatestCost s.cfg) ∧
    (k = 1 → optimizedTicks s = naiveTicks s) ∧
    (1 < k → optimizedTicks s < naiveTicks s)

/-! ### The host interface -/

/-- 70_reset_and_hazards.md R157: `Reset` cannot fail; registers and flags are zero, video bytes are zero, history and traces
are empty; RAM, ROM, `rom_len` and the parameters are unchanged (R158, decision D9). A step right after it fails its fetch
when `ROM_BASE > 0`, and also when `ROM_BASE = 0` and `rom_len = 1`; with `ROM_BASE = 0` and `rom_len = 0` it is `Finished`.
The remaining case, `ROM_BASE = 0` and `rom_len >= 2`, is left to `Obligations.StepOutcomePriority`: there R158's sentence
differs from R47 and R84, which the model follows (notes/assumptions/11.md). -/
def Obligations.ResetTransaction : Prop :=
  ∀ s : State, ∃ t, transact .reset s = .answered .done t ∧
    (∀ k, t.reg k = 0) ∧ t.flags = ⟨false, false, false, false⟩ ∧
    (∀ b, s.cfg.videoBase ≤ b → b < s.cfg.romBase → t.mem.read b = 0) ∧
    (∀ b, b < s.cfg.videoBase ∨ s.cfg.romBase ≤ b → t.mem.read b = s.mem.read b) ∧
    t.hist = [] ∧ t.itrace = [] ∧ t.wtrace = [] ∧ t.romLen = s.romLen ∧ t.cfg = s.cfg ∧
    (0 < s.cfg.romBase → step t = .fault .addressOutOfRange) ∧
    (s.cfg.romBase = 0 → s.romLen = 0 → step t = .fault .finished) ∧
    (s.cfg.romBase = 0 → s.romLen = 1 → step t = .fault .addressOutOfRange)

/-- 70_reset_and_hazards.md R159 (decision D8): power-on, for every legal choice of parameters and every INITIAL_MEMORY in
canonical form: registers, flags, history and traces as after reset, `rom_len` 0, video all zero, RAM and ROM bytes those
of INITIAL_MEMORY; and the invariant holds. -/
def Obligations.PowerOnState : Prop :=
  ∀ (c : Config) (init : Memory), c.wf = true → Memory.wf init = true →
    let s := powerOn c init
    s.Inv ∧ s.cfg = c ∧ (∀ k, s.reg k = 0) ∧ s.flags = ⟨false, false, false, false⟩ ∧ s.romLen = 0 ∧
    s.hist = [] ∧ s.itrace = [] ∧ s.wtrace = [] ∧
    (∀ b, c.videoBase ≤ b → b < c.romBase → s.mem.read b = 0) ∧
    (∀ b, b < c.size → b < c.videoBase ∨ c.romBase ≤ b → s.mem.read b = init.read b)

/-- 20_memory.md R59 (decisions D6, D30): a `Load` longer than ROM is `LoadError` and changes nothing; otherwise the image
is in ROM from its base, under either `ROM_WRITE`, every other byte, every register and flag and everything else is
unchanged, and `rom_len` is `L`. -/
def Obligations.LoadTransaction : Prop :=
  ∀ (bytes : List Byte) (len : Nat) (s : State), Memory.wf s.mem = true →
    (s.cfg.romSize < len → transact (.load bytes len) s = .answered .loadError s) ∧
    (len ≤ s.cfg.romSize → len ≤ bytes.length → ∃ t, transact (.load bytes len) s = .answered .done t ∧
      (∀ k, k < len → some (t.mem.read (s.cfg.romBase + k)) = bytes[k]?) ∧
      (∀ b, b < s.cfg.romBase ∨ s.cfg.romBase + len ≤ b → t.mem.read b = s.mem.read b) ∧
      t.romLen = len ∧ t.regs = s.regs ∧ t.flags = s.flags ∧ t.cfg = s.cfg ∧ t.hist = s.hist ∧
      t.itrace = s.itrace ∧ t.wtrace = s.wtrace)

/-- 20_memory.md R60 (an inference of the spec from R58 and R59): an image loaded and then read back by a ROM snapshot
long enough is unchanged. -/
def Obligations.LoadThenRomSnapshot : Prop :=
  ∀ (bytes : List Byte) (maxLen : Nat) (s t : State), Memory.wf s.mem = true → bytes.length ≤ maxLen →
    transact (.load bytes bytes.length) s = .answered .done t →
    ∃ rest, transact (.romSnapshot maxLen) t = .answered (.bytes (bytes ++ rest)) t

/-- 20_memory.md R58 (decision D31): the snapshots are the first bytes of their region, as many as asked for and as it
has, and change nothing. -/
def Obligations.SnapshotsReadTheRegions : Prop :=
  ∀ (n : Nat) (s : State), ∃ v r : List Byte,
    transact (.videoSnapshot n) s = .answered (.bytes v) s ∧ transact (.romSnapshot n) s = .answered (.bytes r) s ∧
    v.length = min n s.cfg.videoSize ∧ r.length = min n s.cfg.romSize ∧
    (∀ k, k < v.length → v[k]? = some (s.mem.read (s.cfg.videoBase + k))) ∧
    (∀ k, k < r.length → r[k]? = some (s.mem.read (s.cfg.romBase + k)))

/-- 60_exceptions.md R151 (decision D28), R152 (decision D26): the accessors write exactly the register or flag they name
and read it back; nothing else changes; an index outside 0..7 or a flag outside N, Z, V, C is refused. That a
flag identifier is a character is the model's choice (notes/assumptions/9.md). -/
def Obligations.HostAccessors : Prop :=
  (∀ (i : Nat) (v : Word) (s : State),
    (i < 8 → ∃ t, transact (.setReg i v) s = .answered .done t ∧
      transact (.readReg i) t = .answered (.word v) t ∧
      (∀ k : RegNum, k.val ≠ i → t.reg k = s.reg k) ∧ t.flags = s.flags ∧ t.mem = s.mem ∧ SameSurroundings s t) ∧
    (8 ≤ i → transact (.setReg i v) s = .refused (.noSuchRegister i) ∧
      transact (.readReg i) s = .refused (.noSuchRegister i))) ∧
  (∀ (f : Char) (b : Bool) (s : State),
    (f = 'N' ∨ f = 'Z' ∨ f = 'V' ∨ f = 'C' → ∃ t, transact (.setFlag f b) s = .answered .done t ∧
      transact (.readFlag f) t = .answered (.flag b) t ∧
      (∀ g, g ≠ f → readFlagNamed g t = readFlagNamed g s) ∧ t.regs = s.regs ∧ t.mem = s.mem ∧
      SameSurroundings s t) ∧
    (f ≠ 'N' → f ≠ 'Z' → f ≠ 'V' → f ≠ 'C' → transact (.setFlag f b) s = .refused (.noSuchFlag f) ∧
      transact (.readFlag f) s = .refused (.noSuchFlag f)))

/-- 60_exceptions.md R150 and R151 on the traces: the last `n` entries, or all of them when there are fewer; observing
changes nothing. -/
def Obligations.TraceObserversGiveTheLastEntries : Prop :=
  ∀ (n : Nat) (s : State), ∃ (a : List TraceEntry) (b : List Word) (p : List TraceEntry) (q : List Word),
    transact (.trace n) s = .answered (.trace a) s ∧ transact (.wordTrace n) s = .answered (.wordTrace b) s ∧
    s.itrace = p ++ a ∧ s.wtrace = q ++ b ∧
    a.length = min n s.itrace.length ∧ b.length = min n s.wtrace.length

/-- 70_reset_and_hazards.md R161: a boot. From any state with legal parameters and canonical memory, `Load` of an image of
at least two bytes after a `Reset`, then `SetReg(7, ROM_BASE)`, makes the next step fetch the image's first word: a
legal one continues, an illegal one is `FatalError(InvalidOpcode)`. -/
def Obligations.BootFetchesTheImage : Prop :=
  ∀ (s s1 s2 s3 : State) (lo hi : Byte) (rest : List Byte), s.cfg.wf = true → Memory.wf s.mem = true →
    transact .reset s = .answered .done s1 →
    transact (.load (lo :: hi :: rest) (rest.length + 2)) s1 = .answered .done s2 →
    transact (.setReg 7 (u16 s.cfg.romBase)) s2 = .answered .done s3 →
    (∀ i, decode (u16 (lo.toNat + 256 * hi.toNat)) = .instr i →
      ∃ t, step s3 = .next t ∧ t.wtrace = [u16 (lo.toNat + 256 * hi.toNat)]) ∧
    (decode (u16 (lo.toNat + 256 * hi.toNat)) = .rejected .invalidOpcode →
      step s3 = .fault (.invalidOpcode (s3.setPc (u16 (s.cfg.romBase + 2)))))

/-- 20_memory.md R56 (an inference of the spec from R45 and R53): a CPU store into the fetch window is what the next fetch
of that word reads, with `ROM_WRITE = Store`; with `Drop` the word is the old one. -/
def Obligations.StoresIntoTheFetchWindowAreFetched : Prop :=
  ∀ (s : State) (a : Nat) (v : Word), Memory.wf s.mem = true →
    s.cfg.romBase ≤ a → a + 2 ≤ s.cfg.romBase + s.romLen → a < 65536 →
    let t := (memWrite s a v).setPc (u16 a)
    (s.cfg.romWrite = .store → fetch t = .word v (t.setPc (u16 (a + 2)))) ∧
    (s.cfg.romWrite = .drop → fetch t = .word (memRead s a) (t.setPc (u16 (a + 2))))

/-- The model's convention of notes/assumptions/6.md: an instruction word placed where the next step fetches it is the
word that step fetches, in every state with legal parameters, canonical memory and a legal `rom_len`. -/
def Obligations.PlacedWordIsFetched : Prop :=
  ∀ (s : State) (w : Nat), s.cfg.wf = true → Memory.wf s.mem = true → s.romLen ≤ s.cfg.romSize → w < 65536 →
    let t := s.withFetchWord 16 w
    fetch t = .word (u16 w) (t.setPc (u16 (t.pc.toNat + 2))) ∧ t.flags = s.flags ∧ (∀ k, k ≠ 7 → t.reg k = s.reg k)
end

