-- ==== Sys2Proof/Laws/Decode.lean ====
section
/-! SUPPORT. What the decoder can answer, said once. -/

namespace Sys2Proof

/-- A row that matching picks is a row of the table and accepts the word. -/
theorem matchRow_some {w : Word} {d : Descriptor} (h : matchRow w = some d) : d ∈ table ∧ w &&& d.mask = d.opcode := by
  refine ⟨List.mem_of_find?_eq_some h, ?_⟩
  have := List.find?_some h
  simpa [Descriptor.accepts] using this

/-- Matching picks no row exactly when no row accepts the word. -/
theorem matchRow_none {w : Word} : matchRow w = none ↔ ∀ d ∈ table, w &&& d.mask ≠ d.opcode := by
  simp [matchRow, Descriptor.accepts]

/-- What a word that decodes says: some row of the table accepts it, and the instruction is that row's. -/
theorem decode_instr {w : Word} {i : Instr} :
    decode w = .instr i ↔ ∃ d, matchRow w = some d ∧ i = d.mnemonic.instr w := by
  unfold decode
  cases h : matchRow w with
  | none => simp
  | some d => simp [eq_comm]

/-- A word is rejected exactly when no row accepts it, and then by the name `invalidOpcode`. -/
theorem decode_rejected {w : Word} {e : DecodeError} :
    decode w = .rejected e ↔ matchRow w = none ∧ e = .invalidOpcode := by
  unfold decode
  cases h : matchRow w with
  | none => simp [eq_comm]
  | some d => simp

/-- The instruction a mnemonic makes of a word has that mnemonic. -/
@[simp] theorem instr_mnemonic (m : Mnemonic) (w : Word) : (m.instr w).mnemonic = m := by cases m <;> rfl

/-- Its fields are those its shape extracts (40_execution_engine.md R86). -/
@[simp] theorem instr_fields (m : Mnemonic) (w : Word) : (m.instr w).fields = extract m.shape w := by cases m <;> rfl

/-- The shape column of the table is the shape of the mnemonic. -/
theorem table_shape : ∀ d ∈ table, d.shape = d.mnemonic.shape := by decide

/-- The two copies of the match column agree: the decoder's and the encoder's. -/
theorem table_base : ∀ d ∈ table, d.opcode = BitVec.ofNat 16 d.mnemonic.base := by decide

/-- Mode fields and mode numbers are inverse to each other. -/
@[simp] theorem mode_ofField_number (m : Mode) : Mode.ofField m.number = m := by cases m <;> rfl

theorem mode_number_ofField {n : Nat} (h : n < 8) : (Mode.ofField n).number = n := by
  have : n = 0 ∨ n = 1 ∨ n = 2 ∨ n = 3 ∨ n = 4 ∨ n = 5 ∨ n = 6 ∨ n = 7 := by omega
  rcases this with rfl | rfl | rfl | rfl | rfl | rfl | rfl | rfl <;> rfl

theorem mode_number_lt (m : Mode) : m.number < 8 := by cases m <;> decide

theorem operand_bits_lt (o : Operand) : o.bits < 64 := by
  have h1 := mode_number_lt o.mode
  have h2 := o.reg.isLt
  unfold Operand.bits
  omega

end Sys2Proof
end

