-- ==== Sys2Proof/Laws/Memory.lean ====
section
/-! SUPPORT. The laws of memory: a read after a write, the canonical form and the bounds that every operation keeps, and
that a canonical memory is determined by what it reads. -/

namespace Sys2Proof.Machine.Memory

/-- Every listed address is above `b`. -/
abbrev Above (b : Nat) (m : Memory) : Prop := ∀ cell ∈ m, b < cell.1

theorem wf_cons (b : Nat) (w : Byte) (m : Memory) :
    wf ((b, w) :: m) = true ↔ w ≠ unlistedByte ∧ Above b m ∧ wf m = true := by
  simp [wf, Above, and_assoc]

theorem read_of_above {b a : Nat} {m : Memory} (h : Above b m) (ha : a ≤ b) : read m a = unlistedByte := by
  induction m with
  | nil => rfl
  | cons cell m ih =>
    obtain ⟨c, w⟩ := cell
    have hc : b < c := h (c, w) (by simp)
    have hne : a ≠ c := by omega
    simp only [read, hne, if_false]
    exact ih (fun x hx => h x (by simp [hx]))

/-- A write leaves every other address alone, whatever the form of the memory. -/
theorem read_write_other (m : Memory) {a b : Nat} (v : Byte) (h : b ≠ a) : read (write m a v) b = read m b := by
  induction m with
  | nil => simp only [write]; split <;> simp [read, h]
  | cons cell m ih =>
    obtain ⟨c, w⟩ := cell
    simp only [write]
    split
    · split <;> simp [read, h]
    · split
      · next hac => subst hac; split <;> simp [read, h]
      · simp [read, ih]

/-- A canonical memory gives back what was written. -/
theorem read_write_same {m : Memory} (hm : wf m = true) (a : Nat) (v : Byte) : read (write m a v) a = v := by
  induction m with
  | nil => simp only [write]; split <;> simp_all [read]
  | cons cell m ih =>
    obtain ⟨c, w⟩ := cell
    obtain ⟨hw, habove, hwf⟩ := (wf_cons c w m).1 hm
    simp only [write]
    split
    · next hac =>
      split
      · next hv =>
        have hne : a ≠ c := by omega
        simp only [read, hne, if_false, hv]
        exact read_of_above habove (by omega)
      · simp [read]
    · split
      · next hac =>
        subst hac
        split
        · next hv => rw [hv]; exact read_of_above habove (Nat.le_refl _)
        · simp [read]
      · next hne => simp [read, hne, ih hwf]

theorem read_write {m : Memory} (hm : wf m = true) (a b : Nat) (v : Byte) :
    read (write m a v) b = if b = a then v else read m b := by
  split
  · next h => subst h; exact read_write_same hm _ v
  · next h => exact read_write_other m v h

theorem mem_write {m : Memory} {a : Nat} {v : Byte} {cell : Host.Cell} (h : cell ∈ write m a v) :
    cell.1 = a ∨ cell ∈ m := by
  induction m with
  | nil =>
    simp only [write] at h
    split at h <;> simp_all
  | cons x m ih =>
    obtain ⟨c, w⟩ := x
    simp only [write] at h
    split at h
    · split at h
      · exact .inr h
      · rcases List.mem_cons.1 h with rfl | h
        · exact .inl rfl
        · exact .inr h
    · split at h
      · split at h
        · exact .inr (List.mem_cons_of_mem _ h)
        · rcases List.mem_cons.1 h with rfl | h
          · exact .inl rfl
          · exact .inr (List.mem_cons_of_mem _ h)
      · rcases List.mem_cons.1 h with rfl | h
        · exact .inr (by simp)
        · exact (ih h).imp id (List.mem_cons_of_mem _)

/-- A write keeps the canonical form. -/
theorem wf_write {m : Memory} (hm : wf m = true) (a : Nat) (v : Byte) : wf (write m a v) = true := by
  induction m with
  | nil =>
    simp only [write]
    split
    · rfl
    · next hv => simp [wf, hv]
  | cons cell m ih =>
    obtain ⟨c, w⟩ := cell
    obtain ⟨hw, habove, hwf⟩ := (wf_cons c w m).1 hm
    simp only [write]
    split
    · next hac =>
      split
      · exact hm
      · next hv =>
        refine (wf_cons a v _).2 ⟨hv, ?_, hm⟩
        intro x hx
        rcases List.mem_cons.1 hx with rfl | hx
        · exact hac
        · exact Nat.lt_trans hac (habove x hx)
    · next hnlt =>
      split
      · next hac =>
        subst hac
        split
        · exact hwf
        · next hv => exact (wf_cons a v m).2 ⟨hv, habove, hwf⟩
      · next hne =>
        refine (wf_cons c w _).2 ⟨hw, ?_, ih hwf⟩
        intro x hx
        rcases mem_write hx with h | h
        · omega
        · exact habove x h

theorem wf_filter {m : Memory} (hm : wf m = true) (p : Host.Cell → Bool) : wf (m.filter p) = true := by
  induction m with
  | nil => rfl
  | cons cell m ih =>
    obtain ⟨c, w⟩ := cell
    obtain ⟨hw, habove, hwf⟩ := (wf_cons c w m).1 hm
    rw [List.filter_cons]
    split
    · exact (wf_cons c w _).2 ⟨hw, fun x hx => habove x (List.mem_of_mem_filter hx), ih hwf⟩
    · exact ih hwf

/-- Clearing a range keeps the canonical form. -/
theorem wf_clearRange {m : Memory} (hm : wf m = true) (lo hi : Nat) : wf (clearRange m lo hi) = true :=
  wf_filter hm _

/-- Storing a run of bytes keeps the canonical form. -/
theorem wf_writeBytes {m : Memory} (hm : wf m = true) (a : Nat) (vs : List Byte) : wf (writeBytes m a vs) = true := by
  induction vs generalizing m a with
  | nil => exact hm
  | cons v vs ih => exact ih (wf_write hm a v) (a + 1)

/-- Keeping the cells an address test keeps: those addresses read as before, the others as unlisted. -/
theorem read_filter (m : Memory) (p : Nat → Bool) (a : Nat) :
    read (m.filter (fun cell => p cell.1)) a = if p a then read m a else unlistedByte := by
  induction m with
  | nil => simp [read]
  | cons cell m ih =>
    obtain ⟨c, w⟩ := cell
    rw [List.filter_cons]
    by_cases hac : a = c
    · subst hac
      by_cases hp : p a = true
      · simp [hp, read]
      · simp only [hp, if_false, Bool.false_eq_true]
        rw [ih]; simp [hp]
    · by_cases hp : p c = true
      · simp only [hp, if_true, read, hac, if_false]; exact ih
      · simp only [hp, if_false, Bool.false_eq_true, read, hac]; exact ih

/-- Clearing a range sets its bytes to zero and leaves every other byte alone. -/
theorem read_clearRange (m : Memory) (lo hi a : Nat) :
    read (clearRange m lo hi) a = if lo ≤ a ∧ a < hi then unlistedByte else read m a := by
  unfold clearRange
  rw [read_filter m (fun x => !(decide (lo ≤ x) && decide (x < hi)))]
  by_cases h1 : lo ≤ a <;> by_cases h2 : a < hi <;> simp [h1, h2]

/-- What a run of stored bytes reads as, byte by byte. -/
theorem read_writeBytes {m : Memory} (hm : wf m = true) (a b : Nat) (vs : List Byte) :
    read (writeBytes m a vs) b = if a ≤ b then (vs[b - a]?).getD (read m b) else read m b := by
  induction vs generalizing m a with
  | nil => simp [writeBytes]
  | cons v vs ih =>
    rw [writeBytes, ih (wf_write hm a v), read_write hm]
    by_cases h1 : a ≤ b
    · by_cases h2 : b = a
      · subst h2; simp
      · have h3 : a + 1 ≤ b := by omega
        have h4 : b - a = (b - (a + 1)) + 1 := by omega
        simp [h1, h2, h3, h4]
    · have h2 : b ≠ a := by omega
      have h3 : ¬ a + 1 ≤ b := by omega
      simp [h1, h2, h3]

/-- Cells stay below a bound that the written address meets. -/
theorem below_write {m : Memory} {n a : Nat} {v : Byte} (hm : ∀ cell ∈ m, cell.1 < n) (ha : a < n) :
    ∀ cell ∈ write m a v, cell.1 < n := fun cell hc => by
  rcases mem_write hc with h | h
  · rw [h]; exact ha
  · exact hm cell h

theorem below_writeBytes {m : Memory} {n a : Nat} {vs : List Byte} (hm : ∀ cell ∈ m, cell.1 < n)
    (ha : a + vs.length ≤ n) : ∀ cell ∈ writeBytes m a vs, cell.1 < n := by
  induction vs generalizing m a with
  | nil => exact hm
  | cons v vs ih =>
    simp only [List.length_cons] at ha
    exact ih (below_write hm (by omega)) (by omega)

theorem below_clearRange {m : Memory} {n lo hi : Nat} (hm : ∀ cell ∈ m, cell.1 < n) :
    ∀ cell ∈ clearRange m lo hi, cell.1 < n := fun cell hc => hm cell (List.mem_of_mem_filter hc)

/-- Two canonical memories that read alike are equal. -/
theorem ext_of_read {m k : Memory} (hm : wf m = true) (hk : wf k = true) (h : ∀ a, read m a = read k a) : m = k := by
  induction m generalizing k with
  | nil =>
    cases k with
    | nil => rfl
    | cons cell k =>
      obtain ⟨c, w⟩ := cell
      have := ((wf_cons c w k).1 hk).1
      have h' := h c
      simp [read] at h'
      exact absurd h'.symm this
  | cons cell m ih =>
    obtain ⟨b, v⟩ := cell
    obtain ⟨hv, hb, hm'⟩ := (wf_cons b v m).1 hm
    cases k with
    | nil =>
      have h' := h b
      simp [read] at h'
      exact absurd h' hv
    | cons cell k =>
      obtain ⟨c, w⟩ := cell
      obtain ⟨hw, hc, hk'⟩ := (wf_cons c w k).1 hk
      have hbc : b = c := by
        rcases Nat.lt_trichotomy b c with hlt | heq | hgt
        · have h' := h b
          have hne : b ≠ c := by omega
          simp [read, hne, read_of_above hc (Nat.le_of_lt hlt)] at h'
          exact absurd h' hv
        · exact heq
        · have h' := h c
          have hne : c ≠ b := by omega
          simp [read, hne, read_of_above hb (Nat.le_of_lt hgt)] at h'
          exact absurd h'.symm hw
      subst hbc
      have hvw : v = w := by have h' := h b; simpa [read] using h'
      subst hvw
      have : m = k := ih hm' hk' (fun a => by
        by_cases hab : a = b
        · subst hab; rw [read_of_above hb (Nat.le_refl _), read_of_above hc (Nat.le_refl _)]
        · have h' := h a; simpa [read, hab] using h')
      rw [this]

end Sys2Proof.Machine.Memory
end

