-- ==== Sys2Proof/Laws/State.lean ====
section
/-! SUPPORT. One lemma per field per update of the state, true by rfl, and what reading a register after a write gives. -/

namespace Sys2Proof.Machine.State

@[simp] theorem setReg_cfg (s : State) (i : RegNum) (v : Word) : (s.setReg i v).cfg = s.cfg := rfl
@[simp] theorem setReg_flags (s : State) (i : RegNum) (v : Word) : (s.setReg i v).flags = s.flags := rfl
@[simp] theorem setReg_mem (s : State) (i : RegNum) (v : Word) : (s.setReg i v).mem = s.mem := rfl
@[simp] theorem setReg_romLen (s : State) (i : RegNum) (v : Word) : (s.setReg i v).romLen = s.romLen := rfl
@[simp] theorem setReg_hist (s : State) (i : RegNum) (v : Word) : (s.setReg i v).hist = s.hist := rfl
@[simp] theorem setReg_itrace (s : State) (i : RegNum) (v : Word) : (s.setReg i v).itrace = s.itrace := rfl
@[simp] theorem setReg_wtrace (s : State) (i : RegNum) (v : Word) : (s.setReg i v).wtrace = s.wtrace := rfl

@[simp] theorem setReg_regs (s : State) (i : RegNum) (v : Word) : (s.setReg i v).regs = s.regs.set i.val v := rfl

@[simp] theorem setPc_cfg (s : State) (v : Word) : (s.setPc v).cfg = s.cfg := rfl
@[simp] theorem setPc_flags (s : State) (v : Word) : (s.setPc v).flags = s.flags := rfl
@[simp] theorem setPc_mem (s : State) (v : Word) : (s.setPc v).mem = s.mem := rfl
@[simp] theorem setPc_romLen (s : State) (v : Word) : (s.setPc v).romLen = s.romLen := rfl
@[simp] theorem setPc_hist (s : State) (v : Word) : (s.setPc v).hist = s.hist := rfl
@[simp] theorem setPc_itrace (s : State) (v : Word) : (s.setPc v).itrace = s.itrace := rfl
@[simp] theorem setPc_wtrace (s : State) (v : Word) : (s.setPc v).wtrace = s.wtrace := rfl

@[simp] theorem advancePc_cfg (s : State) : (s.advancePc).cfg = s.cfg := rfl
@[simp] theorem advancePc_flags (s : State) : (s.advancePc).flags = s.flags := rfl
@[simp] theorem advancePc_mem (s : State) : (s.advancePc).mem = s.mem := rfl
@[simp] theorem advancePc_romLen (s : State) : (s.advancePc).romLen = s.romLen := rfl
@[simp] theorem advancePc_hist (s : State) : (s.advancePc).hist = s.hist := rfl
@[simp] theorem advancePc_itrace (s : State) : (s.advancePc).itrace = s.itrace := rfl
@[simp] theorem advancePc_wtrace (s : State) : (s.advancePc).wtrace = s.wtrace := rfl

@[simp] theorem setFlags_cfg (s : State) (f : Flags) : (s.setFlags f).cfg = s.cfg := rfl
@[simp] theorem setFlags_regs (s : State) (f : Flags) : (s.setFlags f).regs = s.regs := rfl
@[simp] theorem setFlags_mem (s : State) (f : Flags) : (s.setFlags f).mem = s.mem := rfl
@[simp] theorem setFlags_romLen (s : State) (f : Flags) : (s.setFlags f).romLen = s.romLen := rfl
@[simp] theorem setFlags_hist (s : State) (f : Flags) : (s.setFlags f).hist = s.hist := rfl
@[simp] theorem setFlags_itrace (s : State) (f : Flags) : (s.setFlags f).itrace = s.itrace := rfl
@[simp] theorem setFlags_wtrace (s : State) (f : Flags) : (s.setFlags f).wtrace = s.wtrace := rfl

@[simp] theorem setFlags_flags (s : State) (f : Flags) : (s.setFlags f).flags = f := rfl

@[simp] theorem setFlags_reg (s : State) (f : Flags) (k : RegNum) : (s.setFlags f).reg k = s.reg k := rfl

@[simp] theorem setFlags_pc (s : State) (f : Flags) : (s.setFlags f).pc = s.pc := rfl

@[simp] theorem reg_setReg_same (s : State) (i : RegNum) (v : Word) : (s.setReg i v).reg i = v := by
  simp [reg, setReg]

theorem reg_setReg_other (s : State) (i k : RegNum) (v : Word) (h : k ≠ i) : (s.setReg i v).reg k = s.reg k := by
  have : i.val ≠ k.val := fun e => h (Fin.ext e.symm)
  simp [reg, setReg, this]

theorem reg_setReg (s : State) (i k : RegNum) (v : Word) : (s.setReg i v).reg k = if k = i then v else s.reg k := by
  split
  · next h => subst h; simp
  · next h => exact reg_setReg_other s i k v h

/-- Writing a register's own value changes nothing. -/
@[simp] theorem setReg_self (s : State) (i : RegNum) : s.setReg i (s.reg i) = s := by
  cases s; simp [reg, setReg]

/-- Of two writes of one register the second counts. -/
@[simp] theorem setReg_setReg (s : State) (i : RegNum) (v w : Word) : (s.setReg i v).setReg i w = s.setReg i w := by
  cases s; simp [setReg, Vector.set_set]

@[simp] theorem pc_setPc (s : State) (v : Word) : (s.setPc v).pc = v := by simp [pc, setPc]

@[simp] theorem pc_advancePc (s : State) : s.advancePc.pc = s.pc + 2 := by simp [advancePc]

theorem reg_setPc_other (s : State) (k : RegNum) (v : Word) (h : k ≠ pcNum) : (s.setPc v).reg k = s.reg k :=
  reg_setReg_other s pcNum k v h

theorem reg_advancePc_other (s : State) (k : RegNum) (h : k ≠ pcNum) : s.advancePc.reg k = s.reg k :=
  reg_setPc_other s k _ h

end Sys2Proof.Machine.State

namespace Sys2Proof.Machine

@[simp] theorem record_cfg (w : Word) (i : Instr) (s : State) : (record w i s).cfg = s.cfg := rfl
@[simp] theorem record_regs (w : Word) (i : Instr) (s : State) : (record w i s).regs = s.regs := rfl
@[simp] theorem record_flags (w : Word) (i : Instr) (s : State) : (record w i s).flags = s.flags := rfl
@[simp] theorem record_mem (w : Word) (i : Instr) (s : State) : (record w i s).mem = s.mem := rfl
@[simp] theorem record_romLen (w : Word) (i : Instr) (s : State) : (record w i s).romLen = s.romLen := rfl

@[simp] theorem record_hist (w : Word) (i : Instr) (s : State) : (record w i s).hist = s.hist ++ stepEntries s.cfg := rfl

@[simp] theorem record_itrace (w : Word) (i : Instr) (s : State) :
    (record w i s).itrace = s.itrace ++ [⟨w, i.mnemonic, i.fields⟩] := rfl

@[simp] theorem record_wtrace (w : Word) (i : Instr) (s : State) : (record w i s).wtrace = s.wtrace ++ [w] := rfl

end Sys2Proof.Machine
end

