-- ==== Sys2Proof/Laws/Ops.lean ====
section
/-! SUPPORT. What each shared operation over registers and memory can do, said once: the fields it leaves, the bytes it
changes, the forms it keeps. -/

namespace Sys2Proof.Machine

@[simp] theorem cpuWriteByte_cfg (s : State) (b : Nat) (v : Byte) : (cpuWriteByte s b v).cfg = s.cfg := by
  unfold cpuWriteByte; split <;> rfl

@[simp] theorem cpuWriteByte_regs (s : State) (b : Nat) (v : Byte) : (cpuWriteByte s b v).regs = s.regs := by
  unfold cpuWriteByte; split <;> rfl

@[simp] theorem cpuWriteByte_flags (s : State) (b : Nat) (v : Byte) : (cpuWriteByte s b v).flags = s.flags := by
  unfold cpuWriteByte; split <;> rfl

@[simp] theorem cpuWriteByte_romLen (s : State) (b : Nat) (v : Byte) : (cpuWriteByte s b v).romLen = s.romLen := by
  unfold cpuWriteByte; split <;> rfl

@[simp] theorem cpuWriteByte_hist (s : State) (b : Nat) (v : Byte) : (cpuWriteByte s b v).hist = s.hist := by
  unfold cpuWriteByte; split <;> rfl

@[simp] theorem cpuWriteByte_itrace (s : State) (b : Nat) (v : Byte) : (cpuWriteByte s b v).itrace = s.itrace := by
  unfold cpuWriteByte; split <;> rfl

@[simp] theorem cpuWriteByte_wtrace (s : State) (b : Nat) (v : Byte) : (cpuWriteByte s b v).wtrace = s.wtrace := by
  unfold cpuWriteByte; split <;> rfl

@[simp] theorem memWrite_cfg (s : State) (a : Nat) (v : Word) : (memWrite s a v).cfg = s.cfg := by simp [memWrite]

@[simp] theorem memWrite_regs (s : State) (a : Nat) (v : Word) : (memWrite s a v).regs = s.regs := by simp [memWrite]

@[simp] theorem memWrite_flags (s : State) (a : Nat) (v : Word) : (memWrite s a v).flags = s.flags := by simp [memWrite]

@[simp] theorem memWrite_romLen (s : State) (a : Nat) (v : Word) : (memWrite s a v).romLen = s.romLen := by simp [memWrite]

@[simp] theorem memWrite_hist (s : State) (a : Nat) (v : Word) : (memWrite s a v).hist = s.hist := by simp [memWrite]

@[simp] theorem memWrite_itrace (s : State) (a : Nat) (v : Word) : (memWrite s a v).itrace = s.itrace := by simp [memWrite]

@[simp] theorem memWrite_wtrace (s : State) (a : Nat) (v : Word) : (memWrite s a v).wtrace = s.wtrace := by simp [memWrite]

@[simp] theorem locWrite_cfg (s : State) (l : Location) (v : Word) : (locWrite s l v).cfg = s.cfg := by
  cases l <;> simp [locWrite]

@[simp] theorem locWrite_flags (s : State) (l : Location) (v : Word) : (locWrite s l v).flags = s.flags := by
  cases l <;> simp [locWrite]

@[simp] theorem locWrite_romLen (s : State) (l : Location) (v : Word) : (locWrite s l v).romLen = s.romLen := by
  cases l <;> simp [locWrite]

@[simp] theorem locWrite_hist (s : State) (l : Location) (v : Word) : (locWrite s l v).hist = s.hist := by
  cases l <;> simp [locWrite]

@[simp] theorem locWrite_itrace (s : State) (l : Location) (v : Word) : (locWrite s l v).itrace = s.itrace := by
  cases l <;> simp [locWrite]

@[simp] theorem locWrite_wtrace (s : State) (l : Location) (v : Word) : (locWrite s l v).wtrace = s.wtrace := by
  cases l <;> simp [locWrite]

@[simp] theorem memWrite_reg (s : State) (a : Nat) (v : Word) (k : RegNum) : (memWrite s a v).reg k = s.reg k := by
  simp [State.reg]

@[simp] theorem locWrite_reg_mem (s : State) (i : RegNum) (v : Word) : (locWrite s (.reg i) v).mem = s.mem := rfl

/-- A register location writes that register only; a memory location writes none. -/
theorem locWrite_reg (s : State) (l : Location) (v : Word) (k : RegNum) :
    (locWrite s l v).reg k = if l = .reg k then v else s.reg k := by
  cases l with
  | reg i =>
    simp only [locWrite, State.reg_setReg, Location.reg.injEq]
    by_cases h : k = i
    · subst h; simp
    · have h' : ¬ i = k := fun e => h e.symm
      simp [h, h']
  | mem a => simp [locWrite]

/-- The byte a CPU write leaves at an address (20_memory.md R45). -/
theorem read_cpuWriteByte {s : State} (hm : Memory.wf s.mem = true) (a b : Nat) (v : Byte) :
    (cpuWriteByte s a v).mem.read b =
      if b = a ∧ ¬ (s.cfg.romBase ≤ a ∧ s.cfg.romWrite = .drop) then v else s.mem.read b := by
  unfold cpuWriteByte
  split
  · next h => simp [h]
  · next h => simp only [Memory.read_write hm, h, not_false_eq_true, and_true]

theorem read_cpuWriteByte_other (s : State) {a b : Nat} (v : Byte) (h : b ≠ a) :
    (cpuWriteByte s a v).mem.read b = s.mem.read b := by
  unfold cpuWriteByte
  split
  · rfl
  · exact Memory.read_write_other _ _ h

theorem wf_cpuWriteByte {s : State} (hm : Memory.wf s.mem = true) (a : Nat) (v : Byte) :
    Memory.wf (cpuWriteByte s a v).mem = true := by
  unfold cpuWriteByte
  split
  · exact hm
  · exact Memory.wf_write hm a v

theorem wf_memWrite {s : State} (hm : Memory.wf s.mem = true) (a : Nat) (v : Word) :
    Memory.wf (memWrite s a v).mem = true :=
  wf_cpuWriteByte (wf_cpuWriteByte hm _ _) _ _

/-- Every location write keeps the canonical form. -/
theorem wf_locWrite {s : State} (hm : Memory.wf s.mem = true) (l : Location) (v : Word) :
    Memory.wf (locWrite s l v).mem = true := by
  cases l with
  | reg i => exact hm
  | mem a => exact wf_memWrite hm a v

/-- A word write leaves every byte outside the word alone. -/
theorem read_memWrite_other (s : State) {a b : Nat} (v : Word) (h : b ≠ a) (h' : b ≠ a + 1) :
    (memWrite s a v).mem.read b = s.mem.read b := by
  rw [memWrite, read_cpuWriteByte_other _ _ h', read_cpuWriteByte_other _ _ h]

theorem below_cpuWriteByte {s : State} {n a : Nat} {v : Byte} (hm : ∀ cell ∈ s.mem, cell.1 < n) (ha : a < n) :
    ∀ cell ∈ (cpuWriteByte s a v).mem, cell.1 < n := by
  unfold cpuWriteByte
  split
  · exact hm
  · exact Memory.below_write hm ha

theorem below_memWrite {s : State} {n a : Nat} {v : Word} (hm : ∀ cell ∈ s.mem, cell.1 < n) (ha : a + 1 < n) :
    ∀ cell ∈ (memWrite s a v).mem, cell.1 < n :=
  below_cpuWriteByte (below_cpuWriteByte hm (by omega)) ha

/-- `Valid` as an inequality of naturals (20_memory.md R42). -/
theorem valid_nat (c : Config) (a : Nat) : valid c (a : Int) = true ↔ a + 2 ≤ c.size := by
  simp only [valid, Bool.and_eq_true, decide_eq_true_eq]
  omega

theorem valid_int (c : Config) (a : Int) : valid c a = true ↔ 0 ≤ a ∧ a + 2 ≤ c.size := by
  simp only [valid, Bool.and_eq_true, decide_eq_true_eq]
  omega

/-- `FetchValid` as inequalities of naturals (20_memory.md R47). -/
theorem fetchValid_nat (s : State) (a : Nat) :
    fetchValid s (a : Int) = true ↔ s.cfg.romBase ≤ a ∧ a + 2 ≤ s.endAddr := by
  simp only [fetchValid, Bool.and_eq_true, decide_eq_true_eq]
  omega

end Sys2Proof.Machine
end

