-- ==== Sys2Proof/Laws/Operands.lean ====
section
/-! SUPPORT. What a resolution can do, said once: it changes registers and nothing else, and the memory location it gives
is a valid word address. What running an instruction of a shape can do follows from that and from what its effect can. -/

namespace Sys2Proof.Machine

/-- `t` is `s` but for its registers. -/
structure OnlyRegs (s t : State) : Prop where
  cfg : t.cfg = s.cfg
  flags : t.flags = s.flags
  mem : t.mem = s.mem
  romLen : t.romLen = s.romLen
  hist : t.hist = s.hist
  itrace : t.itrace = s.itrace
  wtrace : t.wtrace = s.wtrace

theorem OnlyRegs.refl (s : State) : OnlyRegs s s := ⟨rfl, rfl, rfl, rfl, rfl, rfl, rfl⟩

theorem OnlyRegs.trans {s t u : State} (h : OnlyRegs s t) (k : OnlyRegs t u) : OnlyRegs s u :=
  ⟨k.cfg.trans h.cfg, k.flags.trans h.flags, k.mem.trans h.mem, k.romLen.trans h.romLen, k.hist.trans h.hist,
   k.itrace.trans h.itrace, k.wtrace.trans h.wtrace⟩

theorem onlyRegs_setReg (s : State) (i : RegNum) (v : Word) : OnlyRegs s (s.setReg i v) :=
  ⟨rfl, rfl, rfl, rfl, rfl, rfl, rfl⟩

theorem onlyRegs_advancePc (s : State) : OnlyRegs s s.advancePc := onlyRegs_setReg s _ _

/-- What every resolution answers: a state that differs in registers only, and a memory location, if it gives one, inside
the address space. -/
structure Resolution.Sound (s : State) (r : Resolution) : Prop where
  state : OnlyRegs s r.state
  inside : ∀ a, r.loc = some (.mem a) → a + 2 ≤ s.cfg.size

theorem sound_fails {s t : State} (h : OnlyRegs s t) : (resolutionFails t).Sound s :=
  ⟨h, fun a ha => by simp [resolutionFails] at ha⟩

theorem sound_toMem {s t : State} {a : Nat} (h : OnlyRegs s t) (ha : valid t.cfg (a : Int) = true) :
    (resolvesToMem a t).Sound s := by
  refine ⟨h, fun b hb => ?_⟩
  simp only [resolvesToMem, Option.some.injEq, Location.mem.injEq] at hb
  rw [← hb, ← h.cfg]
  exact (valid_nat _ _).1 ha

theorem resolveDirect_sound (r : RegNum) (s : State) : (resolveDirect r s).Sound s :=
  ⟨OnlyRegs.refl s, fun a ha => by simp [resolveDirect] at ha⟩

theorem resolveDeferred_sound (r : RegNum) (s : State) : (resolveDeferred r s).Sound s := by
  simp only [resolveDeferred]
  split
  · next h => exact sound_toMem (OnlyRegs.refl s) h
  · exact sound_fails (OnlyRegs.refl s)

theorem resolveAutoInc_sound (r : RegNum) (s : State) : (resolveAutoInc r s).Sound s := by
  simp only [resolveAutoInc]
  split
  · next h => exact sound_toMem (onlyRegs_setReg s _ _) h
  · exact sound_fails (OnlyRegs.refl s)

theorem resolveAutoIncDeferred_sound (r : RegNum) (s : State) : (resolveAutoIncDeferred r s).Sound s := by
  simp only [resolveAutoIncDeferred]
  split
  · split
    · next h => exact sound_toMem (onlyRegs_setReg s _ _) h
    · exact sound_fails (OnlyRegs.refl s)
  · exact sound_fails (OnlyRegs.refl s)

theorem resolveAutoDec_sound (r : RegNum) (s : State) : (resolveAutoDec r s).Sound s := by
  simp only [resolveAutoDec]
  split
  · exact sound_fails (OnlyRegs.refl s)
  · split
    · next h => exact sound_toMem (onlyRegs_setReg s _ _) h
    · exact sound_fails ((onlyRegs_setReg s _ _).trans (onlyRegs_setReg _ _ _))

theorem resolveAutoDecDeferred_sound (r : RegNum) (s : State) : (resolveAutoDecDeferred r s).Sound s := by
  simp only [resolveAutoDecDeferred]
  split
  · exact sound_fails (OnlyRegs.refl s)
  · split
    · split
      · next h => exact sound_toMem (onlyRegs_setReg s _ _) h
      · exact sound_fails ((onlyRegs_setReg s _ _).trans (onlyRegs_setReg _ _ _))
    · exact sound_fails ((onlyRegs_setReg s _ _).trans (onlyRegs_setReg _ _ _))

theorem resolveIndex_sound (r : RegNum) (s : State) : (resolveIndex r s).Sound s := by
  simp only [resolveIndex]
  split
  · split
    · next h =>
      refine sound_toMem (onlyRegs_advancePc s) ?_
      rw [Int.toNat_of_nonneg ((valid_int _ _).1 h).1]
      exact h
    · exact sound_fails (onlyRegs_advancePc s)
  · exact sound_fails (OnlyRegs.refl s)

theorem resolveIndexDeferred_sound (r : RegNum) (s : State) : (resolveIndexDeferred r s).Sound s := by
  simp only [resolveIndexDeferred]
  split
  · split
    · split
      · next h => exact sound_toMem (onlyRegs_advancePc s) h
      · exact sound_fails (onlyRegs_advancePc s)
    · exact sound_fails (onlyRegs_advancePc s)
  · exact sound_fails (OnlyRegs.refl s)

/-- Every resolution is sound. -/
theorem resolve_sound (o : Operand) (s : State) : (resolve o s).Sound s := by
  obtain ⟨m, r⟩ := o
  cases m
  · exact resolveDirect_sound r s
  · exact resolveDeferred_sound r s
  · exact resolveAutoInc_sound r s
  · exact resolveAutoIncDeferred_sound r s
  · exact resolveAutoDec_sound r s
  · exact resolveAutoDecDeferred_sound r s
  · exact resolveIndex_sound r s
  · exact resolveIndexDeferred_sound r s

/-! ### Running an instruction of a shape -/

/-- A single-operand run either skips its effect or runs it on the location its operand resolved to. -/
theorem runSingle_cases (effect : Location → State → State) (dst : Operand) (s : State) :
    ((resolve dst s).loc = none ∧ runSingle effect dst s = (resolve dst s).state) ∨
    ∃ ld, (resolve dst s).loc = some ld ∧ runSingle effect dst s = effect ld (resolve dst s).state := by
  simp only [runSingle]
  cases h : (resolve dst s).loc with
  | none => exact .inl ⟨rfl, rfl⟩
  | some ld => exact .inr ⟨ld, rfl, rfl⟩

/-- A double-operand run resolves source, then destination, and either skips its effect or runs it on the two
locations. -/
theorem runDouble_cases (effect : Location → Location → State → State) (src dst : Operand) (s : State) :
    (((resolve src s).loc = none ∨ (resolve dst (resolve src s).state).loc = none) ∧
      runDouble effect src dst s = (resolve dst (resolve src s).state).state) ∨
    ∃ ls ld, (resolve src s).loc = some ls ∧ (resolve dst (resolve src s).state).loc = some ld ∧
      runDouble effect src dst s = effect ls ld (resolve dst (resolve src s).state).state := by
  simp only [runDouble, resolveDouble]
  cases h : (resolve src s).loc with
  | none => exact .inl ⟨.inl rfl, by simp⟩
  | some ls =>
    cases k : (resolve dst (resolve src s).state).loc with
    | none => exact .inl ⟨.inr rfl, by simp⟩
    | some ld => exact .inr ⟨ls, ld, rfl, rfl, by simp⟩

/-- What an effect may do to a state: write registers, flags and the two bytes of its destination word, inside the address
space and in canonical form. -/
structure Tame (s t : State) : Prop where
  cfg : t.cfg = s.cfg
  romLen : t.romLen = s.romLen
  hist : t.hist = s.hist
  itrace : t.itrace = s.itrace
  wtrace : t.wtrace = s.wtrace
  wf : Memory.wf s.mem = true → Memory.wf t.mem = true
  inside : (∀ cell ∈ s.mem, cell.1 < s.cfg.size) → ∀ cell ∈ t.mem, cell.1 < s.cfg.size

theorem Tame.trans {s t u : State} (h : Tame s t) (k : Tame t u) : Tame s u :=
  ⟨k.cfg.trans h.cfg, k.romLen.trans h.romLen, k.hist.trans h.hist, k.itrace.trans h.itrace, k.wtrace.trans h.wtrace,
   fun x => k.wf (h.wf x), fun x => by have := k.inside; rw [h.cfg] at this; exact this (h.inside x)⟩

theorem OnlyRegs.tame {s t : State} (h : OnlyRegs s t) : Tame s t :=
  ⟨h.cfg, h.romLen, h.hist, h.itrace, h.wtrace, fun x => by rw [h.mem]; exact x, fun x => by rw [h.mem]; exact x⟩

theorem tame_setFlags (s : State) (f : Flags) : Tame s (s.setFlags f) :=
  ⟨rfl, rfl, rfl, rfl, rfl, id, id⟩

/-- A location write is tame where the location is inside the address space. -/
theorem tame_locWrite (s : State) (l : Location) (v : Word) (hl : ∀ a, l = .mem a → a + 2 ≤ s.cfg.size) :
    Tame s (locWrite s l v) := by
  refine ⟨by simp, by simp, by simp, by simp, by simp, fun h => wf_locWrite h l v, ?_⟩
  cases l with
  | reg i => exact id
  | mem a =>
    have := hl a rfl
    exact fun h => below_memWrite h (by omega)

/-- A single-operand run is tame if its effect is on every location inside the address space. -/
theorem tame_runSingle (effect : Location → State → State) (dst : Operand) (s : State)
    (he : ∀ ld st, (∀ a, ld = .mem a → a + 2 ≤ st.cfg.size) → Tame st (effect ld st)) :
    Tame s (runSingle effect dst s) := by
  have hs := resolve_sound dst s
  rcases runSingle_cases effect dst s with ⟨-, h⟩ | ⟨ld, hl, h⟩ <;> rw [h]
  · exact hs.state.tame
  · refine hs.state.tame.trans (he _ _ fun a ha => ?_)
    rw [hs.state.cfg]
    exact hs.inside a (ha ▸ hl)

/-- A double-operand run is tame if its effect is on every destination inside the address space. -/
theorem tame_runDouble (effect : Location → Location → State → State) (src dst : Operand) (s : State)
    (he : ∀ ls ld st, (∀ a, ld = .mem a → a + 2 ≤ st.cfg.size) → Tame st (effect ls ld st)) :
    Tame s (runDouble effect src dst s) := by
  have hs := resolve_sound src s
  have hd := resolve_sound dst (resolve src s).state
  have hregs := (hs.state.trans hd.state).tame
  rcases runDouble_cases effect src dst s with ⟨-, h⟩ | ⟨ls, ld, -, hl, h⟩ <;> rw [h]
  · exact hregs
  · refine hregs.trans (he _ _ _ fun a ha => ?_)
    rw [hd.state.cfg]
    exact hd.inside a (ha ▸ hl)

end Sys2Proof.Machine
end

