-- ==== Sys2Proof/Laws/PerInstr.lean ====
section
/-! SUPPORT. Statements made of every instruction, one lemma per constructor. -/

namespace Sys2Proof.Laws.EncodingFits

/-- The encoding of a well-formed instruction is the sum of its match value and its operand bits, with no carry out of the
word (30_encoding.md R80, R81). -/
def Statement (i : Instr) : Prop := i.wellFormed = true → (encode i).toNat = i.mnemonic.base + i.fields.bits

/-- A sum below 2^16 is the number of the word it makes. -/
theorem toNat_of_lt {n : Nat} (h : n < 65536) : (BitVec.ofNat 16 n).toNat = n := by
  simp only [BitVec.toNat_ofNat]
  exact Nat.mod_eq_of_lt h

theorem of_branch {i : Instr} (m : Mnemonic) (hm : i.mnemonic = m) {off : Word} (hf : i.fields = .branch off)
    (hb : m.base ≤ 0o103400) :
    Statement i := by
  intro h
  simp only [Instr.wellFormed, hf, Fields.wellFormed, decide_eq_true_eq] at h
  refine toNat_of_lt ?_
  rw [hf, hm]
  simp only [Fields.bits]
  omega

theorem of_single {i : Instr} (m : Mnemonic) (hm : i.mnemonic = m) {dst : Operand} (hf : i.fields = .single dst)
    (hb : m.base ≤ 0o005400) :
    Statement i := by
  intro _
  have := operand_bits_lt dst
  refine toNat_of_lt ?_
  rw [hf, hm]
  simp only [Fields.bits]
  omega

theorem of_double {i : Instr} (m : Mnemonic) (hm : i.mnemonic = m) {src dst : Operand} (hf : i.fields = .double src dst)
    (hb : m.base ≤ 0o160000) :
    Statement i := by
  intro _
  have h1 := operand_bits_lt src
  have h2 := operand_bits_lt dst
  refine toNat_of_lt ?_
  rw [hf, hm]
  simp only [Fields.bits]
  omega

theorem halt : Statement .halt := fun _ => rfl

theorem xor (reg : RegNum) (dst : Operand) : Statement (.xor reg dst) := by
  intro _
  have h1 := reg.isLt
  have h2 := operand_bits_lt dst
  refine toNat_of_lt ?_
  simp only [Instr.mnemonic, Instr.fields, Mnemonic.base, Fields.bits]
  omega

theorem br (off : Word) : Statement (.br off) := of_branch .br rfl rfl (by decide)

theorem bne (off : Word) : Statement (.bne off) := of_branch .bne rfl rfl (by decide)

theorem beq (off : Word) : Statement (.beq off) := of_branch .beq rfl rfl (by decide)

theorem bge (off : Word) : Statement (.bge off) := of_branch .bge rfl rfl (by decide)

theorem blt (off : Word) : Statement (.blt off) := of_branch .blt rfl rfl (by decide)

theorem bgt (off : Word) : Statement (.bgt off) := of_branch .bgt rfl rfl (by decide)

theorem ble (off : Word) : Statement (.ble off) := of_branch .ble rfl rfl (by decide)

theorem bpl (off : Word) : Statement (.bpl off) := of_branch .bpl rfl rfl (by decide)

theorem bmi (off : Word) : Statement (.bmi off) := of_branch .bmi rfl rfl (by decide)

theorem bhi (off : Word) : Statement (.bhi off) := of_branch .bhi rfl rfl (by decide)

theorem blos (off : Word) : Statement (.blos off) := of_branch .blos rfl rfl (by decide)

theorem bvc (off : Word) : Statement (.bvc off) := of_branch .bvc rfl rfl (by decide)

theorem bvs (off : Word) : Statement (.bvs off) := of_branch .bvs rfl rfl (by decide)

theorem bcc (off : Word) : Statement (.bcc off) := of_branch .bcc rfl rfl (by decide)

theorem bcs (off : Word) : Statement (.bcs off) := of_branch .bcs rfl rfl (by decide)

theorem clr (dst : Operand) : Statement (.clr dst) := of_single .clr rfl rfl (by decide)

theorem inc (dst : Operand) : Statement (.inc dst) := of_single .inc rfl rfl (by decide)

theorem dec (dst : Operand) : Statement (.dec dst) := of_single .dec rfl rfl (by decide)

theorem neg (dst : Operand) : Statement (.neg dst) := of_single .neg rfl rfl (by decide)

theorem mov (src dst : Operand) : Statement (.mov src dst) := of_double .mov rfl rfl (by decide)

theorem cmp (src dst : Operand) : Statement (.cmp src dst) := of_double .cmp rfl rfl (by decide)

theorem bit (src dst : Operand) : Statement (.bit src dst) := of_double .bit rfl rfl (by decide)

theorem bic (src dst : Operand) : Statement (.bic src dst) := of_double .bic rfl rfl (by decide)

theorem bis (src dst : Operand) : Statement (.bis src dst) := of_double .bis rfl rfl (by decide)

theorem add (src dst : Operand) : Statement (.add src dst) := of_double .add rfl rfl (by decide)

theorem sub (src dst : Operand) : Statement (.sub src dst) := of_double .sub rfl rfl (by decide)

end Sys2Proof.Laws.EncodingFits
end

