-- ==== Sys2Proof/Laws/Step.lean ====
section
/-! SUPPORT. What an instruction and a step can do, said once; the invariants are derived from these. -/

namespace Sys2Proof.Machine

/-- No instruction touches the parameters, `rom_len`, the history or the traces, and each keeps memory canonical and inside
the address space. -/
theorem exec_tame {i : Instr} {s t : State} (h : exec i s = .next t) : Tame s t := by
  have hfl : ∀ (st : State) (ld : Location) (v : Word) (f : Flags), (∀ a, ld = .mem a → a + 2 ≤ st.cfg.size) →
      Tame st ((locWrite st ld v).setFlags f) :=
    fun st ld v f hl => (tame_locWrite st ld v hl).trans (tame_setFlags _ f)
  have hbr : ∀ (c : Bool) (off : Word), Tame s (branchIf c off s) := by
    intro c off
    unfold branchIf
    split
    · exact (onlyRegs_setReg s _ _).tame
    · exact (OnlyRegs.refl s).tame
  cases i <;> (injection h with h; subst h)
  case halt => exact (OnlyRegs.refl s).tame
  case clr dst => exact tame_runSingle _ _ _ fun ld st hl => hfl _ _ _ _ hl
  case inc dst => exact tame_runSingle _ _ _ fun ld st hl => hfl _ _ _ _ hl
  case dec dst => exact tame_runSingle _ _ _ fun ld st hl => hfl _ _ _ _ hl
  case neg dst => exact tame_runSingle _ _ _ fun ld st hl => hfl _ _ _ _ hl
  case xor reg dst => exact tame_runSingle _ _ _ fun ld st hl => hfl _ _ _ _ hl
  case mov src dst => exact tame_runDouble _ _ _ _ fun ls ld st hl => hfl _ _ _ _ hl
  case cmp src dst => exact tame_runDouble _ _ _ _ fun ls ld st _ => tame_setFlags _ _
  case bit src dst => exact tame_runDouble _ _ _ _ fun ls ld st _ => tame_setFlags _ _
  case bic src dst => exact tame_runDouble _ _ _ _ fun ls ld st hl => hfl _ _ _ _ hl
  case bis src dst => exact tame_runDouble _ _ _ _ fun ls ld st hl => hfl _ _ _ _ hl
  case add src dst => exact tame_runDouble _ _ _ _ fun ls ld st hl => hfl _ _ _ _ hl
  case sub src dst => exact tame_runDouble _ _ _ _ fun ls ld st hl => hfl _ _ _ _ hl
  all_goals exact hbr _ _

/-- What phases 1 and 2 can answer. -/
theorem fetch_cases (s : State) :
    (s.pc.toNat = s.endAddr ∧ fetch s = .stop .finished) ∨
    (s.pc.toNat ≠ s.endAddr ∧ ¬ (s.cfg.romBase ≤ s.pc.toNat ∧ s.pc.toNat + 2 ≤ s.endAddr) ∧
      fetch s = .stop .addressOutOfRange) ∨
    (s.pc.toNat ≠ s.endAddr ∧ s.cfg.romBase ≤ s.pc.toNat ∧ s.pc.toNat + 2 ≤ s.endAddr ∧
      fetch s = .word (memRead s s.pc.toNat) s.advancePc) := by
  unfold fetch
  by_cases h : s.pc.toNat = s.endAddr
  · exact .inl ⟨h, by simp [h]⟩
  · by_cases k : fetchValid s (s.pc.toNat : Int) = true
    · have k' := (fetchValid_nat _ _).1 k
      exact .inr (.inr ⟨h, k'.1, k'.2, by simp [h, k]⟩)
    · exact .inr (.inl ⟨h, fun k' => k ((fetchValid_nat _ _).2 k'), by simp [h, k]⟩)

/-- A step that answers a next state fetched a word inside the window that decodes to an instruction, ran it in the state
with `pc` past the word, and recorded it. -/
theorem step_next_inversion {s t : State} (h : step s = .next t) :
    ∃ i u, s.cfg.romBase ≤ s.pc.toNat ∧ s.pc.toNat + 2 ≤ s.endAddr ∧ decode (memRead s s.pc.toNat) = .instr i ∧
      exec i s.advancePc = .next u ∧ t = record (memRead s s.pc.toNat) i u := by
  unfold step at h
  rcases fetch_cases s with ⟨-, hf⟩ | ⟨-, -, hf⟩ | ⟨-, h1, h2, hf⟩ <;> rw [hf] at h
  · simp at h
  · simp at h
  · cases hd : decode (memRead s s.pc.toNat) with
    | rejected e => simp [hd] at h
    | instr i =>
      cases hx : exec i s.advancePc with
      | next u =>
        simp only [hd, hx, completing, Host.Outcome.next.injEq] at h
        exact ⟨i, u, h1, h2, rfl, hx, h.symm⟩
      | fault r => simp [hd, hx, completing] at h
      | refused r => simp [hd, hx, completing] at h

/-- A continuing step leaves the parameters and `rom_len`, and appends the entries of one step. -/
theorem step_next_surroundings {s t : State} (h : step s = .next t) :
    ∃ i, decode (memRead s s.pc.toNat) = .instr i ∧ t.cfg = s.cfg ∧ t.romLen = s.romLen ∧
      t.hist = s.hist ++ stepEntries s.cfg ∧ t.wtrace = s.wtrace ++ [memRead s s.pc.toNat] ∧
      t.itrace = s.itrace ++ [⟨memRead s s.pc.toNat, i.mnemonic, i.fields⟩] := by
  obtain ⟨i, u, -, -, hd, hx, rfl⟩ := step_next_inversion h
  have ht := exec_tame hx
  exact ⟨i, hd, by simp [ht.cfg], by simp [ht.romLen], by simp [ht.hist, ht.cfg], by simp [ht.wtrace],
    by simp [ht.itrace]⟩

end Sys2Proof.Machine
end

