-- ==== Sys2Proof/Tests/Slice0.lean ====
section
/-! SUPPORT. The model's own tests. Words and expected values come from the encodings of 30_encoding.md and the worked
vectors of 95_test_vectors.md, not from the model; then, for every statement with hypotheses, a state that meets them. -/

namespace Sys2Proof.Tests

set_option Elab.async false

open Sys2Proof Sys2Proof.Machine Sys2Proof.Vocabulary

/-! ### Helpers -/

/-- The bytes of words, low byte first. -/
def imageOf (ws : List Word) : List Byte := (ws.map (fun w => [lowByte w, highByte w])).flatten

/-- "Boot with image" of 95_test_vectors.md, with parameters `c`. -/
def bootWith (c : Config) (ws : List Word) : State := setPcToRom (loadImage (imageOf ws) (hostReset (powerOn c [])))

/-- Boot in the example configuration. -/
def boot (ws : List Word) : State := bootWith Config.example17 ws

/-- Flags written `N Z V C`. -/
def nzvc (n z v c : Nat) : Flags := ⟨n == 1, z == 1, v == 1, c == 1⟩

/-- The next state, if there is one. -/
def nextOf : Host.Outcome State Fault Refusal → Option State
  | .next s => some s
  | _ => none

theorem next_of {o : Host.Outcome State Fault Refusal} {t : State} (h : nextOf o = some t) : o = .next t := by
  cases o <;> simp_all [nextOf]

/-- The state after `n` steps that all continue. -/
def stepsOf : Nat → State → Option State
  | 0, s => some s
  | n + 1, s => (nextOf (step s)).bind (stepsOf n)

/-- One step of `w` alone in ROM, with `r1`, `r2` and the flags given: the new `r2`, flags and `pc`. -/
def oneStep (w r1 r2 : Word) (f : Flags) : Option (Word × Flags × Word) :=
  (nextOf (step ((((boot [w]).setReg 1 r1).setReg 2 r2).setFlags f))).map (fun t => (t.reg 2, t.flags, t.pc))

/-- One step of a branch word at `0x8000`: the new `pc`. -/
def branchTo (w : Word) (f : Flags) : Option Word := (nextOf (step ((boot [w]).setFlags f))).map (fun t => t.pc)

/-- The memory of 95_test_vectors.md 2.2, with the word at `0x8002` and `pc` there. -/
def resolverState (w r1 : Word) : State :=
  let s := memWrite (memWrite (memWrite (boot [0, w]) 0x1000 0x2000) 0x1002 0x3000) 0x2000 0x1111
  (s.setReg 1 r1).setPc 0x8002

/-- What a resolution gives and leaves in `r1` and `pc`. -/
def resolved (o : Operand) (s : State) : Option Location × Word × Word :=
  ((resolve o s).loc, (resolve o s).state.reg 1, (resolve o s).state.pc)

/-- A smaller machine (95_test_vectors.md V5): `ROM_BASE = 0x4000`, `SIZE = 0x5000`. -/
def small : Config := { Config.example17 with ramSize := 0x2000, videoSize := 0x2000, romSize := 0x1000 }

/-- The example machine with a full ROM, so that `END = 0x10000`. -/
def fullRom : State := { boot [] with romLen := 0x8000 }

/-- A machine that is all ROM, full, at `pc = 0`. -/
def allRom : State :=
  { boot [] with cfg := { Config.example17 with ramSize := 0, videoSize := 0, romSize := 0x10000 }, romLen := 0x10000 }

/-- The example configuration with another reading of index arithmetic. -/
def indexing (k : IndexArith) : Config := { Config.example17 with indexArith := k }

/-! ### Well-formed terms -/

theorem test_wellFormed_accepts : (Instr.br 255).wellFormed = true ∧ Instr.halt.wellFormed = true ∧
    (Instr.clr ⟨.index, 7⟩).wellFormed = true ∧ (Instr.xor 7 ⟨.direct, 0⟩).wellFormed = true ∧
    (Instr.sub ⟨.autoInc, 7⟩ ⟨.direct, 0⟩).wellFormed = true := by decide

/-- The one ill-formed kind of term: a branch offset that does not fit its field. -/
theorem test_wellFormed_refuses : (Instr.br 256).wellFormed = false ∧ (Instr.bcs 0xFFFF).wellFormed = false := by decide

/-! ### Words written out from the patterns of 30_encoding.md R73 and the fields of R63 to R67 -/

theorem test_decode_halt : decode 0b0000000000000000 = .instr .halt := by decide

theorem test_decode_branches_lower :
    decode 0b0000000111111111 = .instr (.br 255) ∧ decode 0b0000001000000001 = .instr (.bne 1) ∧
    decode 0b0000001110000000 = .instr (.beq 128) ∧ decode 0b0000010000000010 = .instr (.bge 2) ∧
    decode 0b0000010100000011 = .instr (.blt 3) ∧ decode 0b0000011000000100 = .instr (.bgt 4) ∧
    decode 0b0000011100000101 = .instr (.ble 5) := by decide

theorem test_decode_branches_upper :
    decode 0b1000000000000000 = .instr (.bpl 0) ∧ decode 0b1000000100000110 = .instr (.bmi 6) ∧
    decode 0b1000001000000111 = .instr (.bhi 7) ∧ decode 0b1000001100001000 = .instr (.blos 8) ∧
    decode 0b1000010000001001 = .instr (.bvc 9) ∧ decode 0b1000010100001010 = .instr (.bvs 10) ∧
    decode 0b1000011000001011 = .instr (.bcc 11) ∧ decode 0b1000011111111111 = .instr (.bcs 255) := by decide

/-- `dmode` is `w[5:3]`, `dreg` is `w[2:0]`. -/
theorem test_decode_single :
    decode 0b0000101000001110 = .instr (.clr ⟨.deferred, 6⟩) ∧ decode 0b0000101010010101 = .instr (.inc ⟨.autoInc, 5⟩) ∧
    decode 0b0000101011011100 = .instr (.dec ⟨.autoIncDeferred, 4⟩) ∧
    decode 0b0000101100100011 = .instr (.neg ⟨.autoDec, 3⟩) := by decide

/-- `reg` is `w[8:6]`. -/
theorem test_decode_xor : decode 0b0111100011101110 = .instr (.xor 3 ⟨.autoDecDeferred, 6⟩) := by decide

/-- `smode` is `w[11:9]`, `sreg` is `w[8:6]`. -/
theorem test_decode_double :
    decode 0b0001110001000111 = .instr (.mov ⟨.index, 1⟩ ⟨.direct, 7⟩) ∧
    decode 0b0010111010001110 = .instr (.cmp ⟨.indexDeferred, 2⟩ ⟨.deferred, 6⟩) ∧
    decode 0b0011101011010101 = .instr (.bit ⟨.autoDecDeferred, 3⟩ ⟨.autoInc, 5⟩) ∧
    decode 0b0100100100011100 = .instr (.bic ⟨.autoDec, 4⟩ ⟨.autoIncDeferred, 4⟩) ∧
    decode 0b0101011101100011 = .instr (.bis ⟨.autoIncDeferred, 5⟩ ⟨.autoDec, 3⟩) ∧
    decode 0b0110010110101010 = .instr (.add ⟨.autoInc, 6⟩ ⟨.autoDecDeferred, 2⟩) ∧
    decode 0b1110001111110001 = .instr (.sub ⟨.deferred, 7⟩ ⟨.index, 1⟩) := by decide

/-- The illegal words of 95_test_vectors.md 2.1. -/
theorem test_decode_illegal :
    [0x0001, 0x00FF, 0x0040, 0x0800, 0x0A40, 0x0BC0, 0x0FFF, 0x7000, 0x7A00, 0x8800, 0x8A00, 0x9000, 0xF000].all
      (fun w : Word => decode w == .rejected .invalidOpcode) = true := by decide

theorem test_decodeBytes_low_byte_first :
    decodeBytes [0x42, 0x10, 0xFF] = .instr (.mov ⟨.direct, 1⟩ ⟨.direct, 2⟩) ∧
    decodeBytes [0x42] = .rejected .truncated ∧ decodeBytes [] = .rejected .truncated := by decide

theorem test_decodeTableWord :
    decodeTableWord 16 0x15C0 = some (.mov ⟨.autoInc, 7⟩ ⟨.direct, 0⟩) ∧ decodeTableWord 16 0x0001 = none := by decide

/-- The assembled words of 30_encoding.md R80 and R81 and of program P2. -/
theorem test_encode :
    encode (.mov ⟨.autoInc, 7⟩ ⟨.direct, 0⟩) = 0x15C0 ∧ encode (.add ⟨.autoDec, 0⟩ ⟨.autoDec, 0⟩) = 0x6820 ∧
    encode (.xor 1 ⟨.direct, 1⟩) = 0x7841 ∧ encode (.beq 1) = 0x0301 ∧ encode (.inc ⟨.deferred, 0⟩) = 0x0A88 := by decide

/-! ### Double-operand instructions (95_test_vectors.md 2.3), `r1` to `r2` -/

theorem test_mov : oneStep 0x1042 0x8000 0x1234 (nzvc 0 0 0 1) = some (0x8000, nzvc 1 0 0 1, 0x8002) ∧
    oneStep 0x1042 0 0x1234 (nzvc 1 0 1 1) = some (0, nzvc 0 1 0 1, 0x8002) := by decide +kernel

theorem test_cmp : oneStep 0x2042 3 5 (nzvc 0 0 0 0) = some (5, nzvc 1 0 0 1, 0x8002) ∧
    oneStep 0x2042 0x8000 1 (nzvc 0 0 0 1) = some (1, nzvc 0 0 1 0, 0x8002) := by decide +kernel

theorem test_bit : oneStep 0x3042 0x00F0 0x0F0F (nzvc 0 0 1 1) = some (0x0F0F, nzvc 0 1 0 1, 0x8002) := by decide +kernel

theorem test_bic : oneStep 0x4042 0x00FF 0x1234 (nzvc 0 0 0 0) = some (0x1200, nzvc 0 0 0 0, 0x8002) ∧
    oneStep 0x4042 0xFFFF 0xFFFF (nzvc 0 0 0 1) = some (0, nzvc 0 1 0 1, 0x8002) := by decide +kernel

theorem test_bis : oneStep 0x5042 0x8000 1 (nzvc 0 0 0 0) = some (0x8001, nzvc 1 0 0 0, 0x8002) := by decide +kernel

theorem test_xor : oneStep 0x7842 0x00FF 0x0F0F (nzvc 0 0 1 1) = some (0x0FF0, nzvc 0 0 0 1, 0x8002) := by decide +kernel

theorem test_add : oneStep 0x6042 0x8000 0x8000 (nzvc 0 0 0 0) = some (0, nzvc 0 1 1 1, 0x8002) ∧
    oneStep 0x6042 1 0x7FFF (nzvc 0 0 0 1) = some (0x8000, nzvc 1 0 1 0, 0x8002) := by decide +kernel

theorem test_sub : oneStep 0xE042 5 3 (nzvc 0 0 0 0) = some (0xFFFE, nzvc 1 0 0 1, 0x8002) ∧
    oneStep 0xE042 0xFFFF 0x7FFF (nzvc 0 0 0 0) = some (0x8000, nzvc 1 0 1 1, 0x8002) := by decide +kernel

/-! ### Single-operand instructions (95_test_vectors.md 2.4), on `r2` -/

theorem test_clr : oneStep 0x0A02 0 0x1234 (nzvc 1 0 1 1) = some (0, nzvc 0 1 0 0, 0x8002) := by decide +kernel

theorem test_inc : oneStep 0x0A82 0 0xFFFF (nzvc 0 0 0 1) = some (0, nzvc 0 1 0 1, 0x8002) ∧
    oneStep 0x0A82 0 0x7FFF (nzvc 0 0 0 0) = some (0x8000, nzvc 1 0 1 0, 0x8002) := by decide +kernel

theorem test_dec : oneStep 0x0AC2 0 0 (nzvc 0 1 0 0) = some (0xFFFF, nzvc 1 0 0 0, 0x8002) ∧
    oneStep 0x0AC2 0 0x8000 (nzvc 1 0 0 1) = some (0x7FFF, nzvc 0 0 1 1, 0x8002) := by decide +kernel

theorem test_neg : oneStep 0x0B02 0 0x8000 (nzvc 0 0 0 0) = some (0x8000, nzvc 1 0 1 1, 0x8002) ∧
    oneStep 0x0B02 0 0 (nzvc 0 0 0 1) = some (0, nzvc 0 1 0 0, 0x8002) := by decide +kernel

/-! ### Branches (95_test_vectors.md 2.5) -/

theorem test_br : branchTo 0x0103 (nzvc 1 1 1 1) = some 0x8008 ∧ branchTo 0x01FF (nzvc 0 0 0 0) = some 0x8200 := by
  decide +kernel
theorem test_bne : branchTo 0x0203 (nzvc 0 0 0 0) = some 0x8008 ∧ branchTo 0x0203 (nzvc 0 1 0 0) = some 0x8002 := by
  decide +kernel
theorem test_beq : branchTo 0x0303 (nzvc 0 1 0 0) = some 0x8008 ∧ branchTo 0x0303 (nzvc 0 0 0 0) = some 0x8002 := by
  decide +kernel
theorem test_bge : branchTo 0x0403 (nzvc 1 0 1 0) = some 0x8008 ∧ branchTo 0x0403 (nzvc 1 0 0 0) = some 0x8002 := by
  decide +kernel
theorem test_blt : branchTo 0x0503 (nzvc 0 0 1 0) = some 0x8008 ∧ branchTo 0x0503 (nzvc 1 0 1 0) = some 0x8002 := by
  decide +kernel
theorem test_bgt : branchTo 0x0603 (nzvc 1 0 1 0) = some 0x8008 ∧ branchTo 0x0603 (nzvc 0 1 0 0) = some 0x8002 := by
  decide +kernel
theorem test_ble : branchTo 0x0703 (nzvc 1 0 0 0) = some 0x8008 ∧ branchTo 0x0703 (nzvc 1 0 1 0) = some 0x8002 := by
  decide +kernel
theorem test_bpl : branchTo 0x8003 (nzvc 0 0 0 0) = some 0x8008 ∧ branchTo 0x8003 (nzvc 1 0 0 0) = some 0x8002 := by
  decide +kernel
theorem test_bmi : branchTo 0x8103 (nzvc 1 0 0 0) = some 0x8008 ∧ branchTo 0x8103 (nzvc 0 0 0 0) = some 0x8002 := by
  decide +kernel
theorem test_bhi : branchTo 0x8203 (nzvc 0 0 0 0) = some 0x8008 ∧ branchTo 0x8203 (nzvc 0 0 0 1) = some 0x8002 := by
  decide +kernel
theorem test_blos : branchTo 0x8303 (nzvc 0 1 0 0) = some 0x8008 ∧ branchTo 0x8303 (nzvc 0 0 0 0) = some 0x8002 := by
  decide +kernel
theorem test_bvc : branchTo 0x8403 (nzvc 0 0 0 0) = some 0x8008 ∧ branchTo 0x8403 (nzvc 0 0 1 0) = some 0x8002 := by
  decide +kernel
theorem test_bvs : branchTo 0x8503 (nzvc 0 0 1 0) = some 0x8008 ∧ branchTo 0x8503 (nzvc 0 0 0 0) = some 0x8002 := by
  decide +kernel
theorem test_bcc : branchTo 0x8603 (nzvc 0 0 0 0) = some 0x8008 ∧ branchTo 0x8603 (nzvc 0 0 0 1) = some 0x8002 := by
  decide +kernel
theorem test_bcs : branchTo 0x8703 (nzvc 0 0 0 1) = some 0x8008 ∧ branchTo 0x8703 (nzvc 0 0 0 0) = some 0x8002 := by
  decide +kernel

/-! ### Addressing modes (95_test_vectors.md 2.2) -/

theorem test_modes_0_to_3 :
    resolved ⟨.direct, 3⟩ (resolverState 0 5) = (some (.reg 3), 5, 0x8002) ∧
    resolved ⟨.deferred, 1⟩ (resolverState 0 0x1001) = (some (.mem 0x1001), 0x1001, 0x8002) ∧
    resolved ⟨.deferred, 1⟩ (resolverState 0 0xFFFF) = (none, 0xFFFF, 0x8002) ∧
    resolved ⟨.autoInc, 1⟩ (resolverState 0 0xFFFE) = (some (.mem 0xFFFE), 0, 0x8002) ∧
    resolved ⟨.autoInc, 1⟩ (resolverState 0 0xFFFF) = (none, 0xFFFF, 0x8002) ∧
    resolved ⟨.autoIncDeferred, 1⟩ (resolverState 0 0x1000) = (some (.mem 0x2000), 0x1002, 0x8002) := by decide +kernel

theorem test_modes_4_to_5 :
    resolved ⟨.autoDec, 1⟩ (resolverState 0 0x1002) = (some (.mem 0x1000), 0x1000, 0x8002) ∧
    resolved ⟨.autoDec, 1⟩ (resolverState 0 1) = (none, 1, 0x8002) ∧
    resolved ⟨.autoDec, 1⟩ (resolverState 0 0) = (none, 0, 0x8002) ∧
    resolved ⟨.autoDecDeferred, 1⟩ (resolverState 0 0x1002) = (some (.mem 0x2000), 0x1000, 0x8002) := by decide +kernel

theorem test_modes_6_to_7 :
    resolved ⟨.index, 1⟩ (resolverState 2 0x1000) = (some (.mem 0x1002), 0x1000, 0x8004) ∧
    resolved ⟨.index, 1⟩ (resolverState 0xFFFE 0x1000) = (none, 0x1000, 0x8004) ∧
    resolved ⟨.indexDeferred, 1⟩ (resolverState 2 0x1000) = (some (.mem 0x3000), 0x1000, 0x8004) := by decide +kernel

theorem test_modes_on_pc :
    resolved ⟨.autoInc, 7⟩ (resolverState 0 0) = (some (.mem 0x8002), 0, 0x8004) ∧
    resolved ⟨.autoIncDeferred, 7⟩ (resolverState 0x2000 0) = (some (.mem 0x2000), 0, 0x8004) ∧
    resolved ⟨.autoIncDeferred, 7⟩ (resolverState 0xFFFF 0) = (none, 0, 0x8002) ∧
    resolved ⟨.index, 7⟩ (resolverState 0x10 0) = (some (.mem 0x8014), 0, 0x8004) ∧
    resolved ⟨.autoDec, 7⟩ (resolverState 0 0) = (some (.mem 0x8000), 0, 0x8000) := by decide +kernel

/-- The three readings of `INDEX_ARITH` on `x1 = 0x1000`, `X = 0xFFFE` and on `x1 = 0xFFF0`, `X = 0x0020`. -/
theorem test_index_arith :
    effectiveAddress .unsigned 0x1000 0xFFFE = 0x10FFE ∧ effectiveAddress .wrap16 0x1000 0xFFFE = 0x0FFE ∧
    effectiveAddress .signed 0x1000 0xFFFE = 0x0FFE ∧ effectiveAddress .wrap16 0xFFF0 0x20 = 0x10 ∧
    effectiveAddress .signed 0xFFF0 0x20 = 0x10010 ∧ effectiveAddress .signed 0 0xFFFE = -2 := by decide

/-! ### Side effects, partial failure, outcomes (95_test_vectors.md 2.3, 2.7, Part 1) -/

/-- `MOV R0, (R0)+` stores the incremented `R0`; `ADD #2, PC` reads `pc` past both words. -/
theorem test_effect_after_resolution :
    (nextOf (step ((boot [0x1010]).setReg 0 0x2000))).map (fun t => (memRead t 0x2000, t.reg 0)) = some (0x2002, 0x2002) ∧
    (nextOf (step (boot [0x65C7, 2]))).map (fun t => t.pc) = some 0x8006 := by decide +kernel

/-- `MOV #1, -(R0)` with `R0 = 0`: the effect is skipped, the immediate is consumed, the step is recorded. -/
theorem test_failed_destination :
    (nextOf (step ((boot [0x15E0, 1]).setFlags (nzvc 0 1 0 0)))).map
      (fun t => (t.pc, t.reg 0, t.flags, t.wtrace, t.hist.length)) = some (0x8004, 0, nzvc 0 1 0 0, [0x15E0], 5) := by
  decide +kernel

/-- `MOV -(R1), 4(R2)` with `R1 = 0`: the destination still consumes its index word. -/
theorem test_failed_source :
    (nextOf (step ((boot [0x1872, 4]).setReg 2 0x1000))).map (fun t => (t.pc, t.reg 1, memRead t 0x1004)) =
      some (0x8004, 0, 0) := by decide +kernel

/-- V2: HALT continues, then `Finished`. -/
theorem test_halt_scenario :
    (nextOf (step (boot [0]))).map (fun t => (t.pc, t.itrace, t.wtrace, naiveTicks t, optimizedTicks t, hostStep t)) =
      (nextOf (step (boot [0]))).map (fun t =>
        (0x8002, [⟨0, .halt, .noOperand⟩], [0], 5, 5, .answered (.outcome .finished) t)) := by decide +kernel

/-- An illegal word moves `pc` and nothing else. -/
theorem test_invalid_opcode :
    hostStep (boot [1]) = .answered (.outcome (.fatalError .invalidOpcode)) ((boot [1]).setPc 0x8002) := by decide +kernel

/-- After reset nothing can be fetched; a placed word runs at once. -/
theorem test_reset_and_placed_word :
    hostStep State.reset = .answered (.outcome (.fatalError .addressOutOfRange)) State.reset ∧
    (nextOf (step (State.reset.withFetchWord 16 0x0A80))).map (fun t => (t.reg 0, t.pc)) = some (1, 0x8002) := by
  decide +kernel

/-- 95_test_vectors.md 2.5: with a full ROM, `BR` with `off = 0x10` at `0xFFFC` wraps its target to `0x001E`. -/
theorem test_branch_wraps :
    (nextOf (step ((memWrite fullRom 0xFFFC 0x0110).setPc 0xFFFC))).map (fun t => t.pc) = some 0x001E := by decide +kernel

/-- Program P1 ends in the state the spec gives. -/
theorem test_program_p1 :
    (stepsOf 6 (boot [0x15C0, 5, 0x15C1, 7, 0x6001, 0x25C1, 12, 0x0301, 0x0A82, 0x0A83])).map
      (fun t => ([t.reg 0, t.reg 1, t.reg 2, t.reg 3, t.pc], t.wtrace, naiveTicks t, optimizedTicks t)) =
      some ([5, 12, 0, 1, 0x8014], [0x15C0, 0x15C1, 0x6001, 0x25C1, 0x0301, 0x0A83], 30, 10) := by decide +kernel

/-- `ROM_WRITE`: `MOV #0, @#0x8000` overwrites its own word under `Store` and not under `Drop`. -/
theorem test_rom_write :
    (nextOf (step (boot [0x15DF, 0, 0x8000]))).map (fun t => (romSnapshot t 2, t.pc)) = some ([0, 0], 0x8006) ∧
    (nextOf (step (bootWith { Config.example17 with romWrite := .drop } [0x15DF, 0, 0x8000]))).map
      (fun t => romSnapshot t 2) = some [0xDF, 0x15] := by decide +kernel

/-- A word across RAM and video memory. -/
theorem test_region_crossing :
    (nextOf (step (boot [0x15DF, 0xAABB, 0x3FFF]))).map (fun t => (t.mem.read 0x3FFF, videoSnapshot t 1)) =
      some (0xBB, [0xAA]) := by decide +kernel

theorem test_load_and_refusals :
    transact (.load [] 0x8001) (boot []) = .answered .loadError (boot []) ∧
    transact (.load [1] 2) (boot []) = .refused (.imageTooShort 1 2) ∧
    transact (.setReg 8 0) (boot []) = .refused (.noSuchRegister 8) ∧
    transact (.readReg 9) (boot []) = .refused (.noSuchRegister 9) ∧
    transact (.setFlag 'T' true) (boot []) = .refused (.noSuchFlag 'T') := by decide +kernel

/-- A full ROM at address 0: after reset 0 is in the window of 20_memory.md R47, and the word there is fetched
(notes/assumptions/11.md); with `rom_len = 1` it is not. -/
theorem test_reset_all_rom :
    (nextOf (step (hostReset allRom))).map (fun t => t.pc) = some 2 ∧
    hostStep (hostReset { allRom with romLen := 1 }) =
      .answered (.outcome (.fatalError .addressOutOfRange)) (hostReset { allRom with romLen := 1 }) := by decide +kernel

/-- The totals of 95_test_vectors.md 2.6 for costs 2, 1, 3, 1 and 1, 1, 1, 4. -/
theorem test_ticks :
    (stepsOf 4 (bootWith { Config.example17 with costFetch := 2, costExecute := 3 } [0, 0, 0, 0])).map
      (fun t => (naiveTicks t, optimizedTicks t)) = some (32, 17) ∧
    (stepsOf 2 (bootWith { Config.example17 with costMemAccess := 4 } [0, 0])).map
      (fun t => (naiveTicks t, optimizedTicks t)) = some (22, 15) := by decide +kernel

/-! ### Witnesses: for each statement with hypotheses, a state and operands that meet them, at the ends of each range -/

/-- The state after `w` runs as the one word in ROM, from a state with `r1 = 0x1000`. -/
def ready (ws : List Word) : State := (boot ws).setReg 1 0x1000

/-- Two operands that resolve, to a memory word and a register: `(R1)+` and `R2`. -/
def TwoOperandsResolve : Prop :=
  resolve ⟨.autoInc, 1⟩ (ready []) = ⟨some (.mem 0x1000), (ready []).setReg 1 0x1002⟩ ∧
  resolve ⟨.direct, 2⟩ ((ready []).setReg 1 0x1002) = ⟨some (.reg 2), (ready []).setReg 1 0x1002⟩

/-- One operand that resolves to a memory word: `@(R1)+` over a zero word. -/
def OneOperandResolves : Prop :=
  resolve ⟨.autoIncDeferred, 1⟩ (ready []) = ⟨some (.mem 0), (ready []).setReg 1 0x1002⟩

theorem witness_DecodeOfEncodeIsTheInstruction : (Instr.bcs 255).wellFormed = true := by decide
theorem witness_EncodeOfDecodeIsTheWord : decode 0xEFFF = .instr (.sub ⟨.indexDeferred, 7⟩ ⟨.indexDeferred, 7⟩) := by decide
theorem witness_FirstMatchingRowDecodes_no_row : ∀ d ∈ table, (0x8800 : Word) &&& d.mask ≠ d.opcode := by decide
theorem witness_FirstMatchingRowDecodes_a_row :
    table[1]? = some ⟨0xFF00, 0x0100, .branch, .br⟩ ∧ (0x0100 : Word) &&& 0xFF00 = 0x0100 ∧
    ∀ (b : Nat) (e : Descriptor), b < 1 → table[b]? = some e → (0x0100 : Word) &&& e.mask ≠ e.opcode := by
  refine ⟨by decide, by decide, fun b e hb he => ?_⟩
  have h0 : b = 0 := by omega
  subst h0
  have h1 : e = ⟨0xFFFF, 0x0000, .noOperand, .halt⟩ := (Option.some.inj he).symm
  subst h1
  decide
theorem witness_FieldsOfEveryShape : decode 0x7800 = .instr (.xor 0 ⟨.direct, 0⟩) := by decide

theorem witness_MovResult : TwoOperandsResolve := by unfold TwoOperandsResolve; decide +kernel
theorem witness_CmpResult : TwoOperandsResolve := witness_MovResult
theorem witness_BitResult : TwoOperandsResolve := witness_MovResult
theorem witness_BicResult : TwoOperandsResolve := witness_MovResult
theorem witness_BisResult : TwoOperandsResolve := witness_MovResult
theorem witness_AddResult : TwoOperandsResolve := witness_MovResult
theorem witness_SubResult : TwoOperandsResolve := witness_MovResult
theorem witness_XorResult : OneOperandResolves := by unfold OneOperandResolves; decide +kernel
theorem witness_ClrResult : OneOperandResolves := witness_XorResult
theorem witness_IncResult : OneOperandResolves := witness_XorResult
theorem witness_DecResult : OneOperandResolves := witness_XorResult
theorem witness_NegResult : OneOperandResolves := witness_XorResult

theorem witness_HaltHasNoEffect : State.reset.cfg.wf = true ∧ Memory.wf State.reset.mem = true ∧
    State.reset.cfg.romBase + 2 < 65536 := by decide
theorem witness_BranchesGoForwardOnly :
    (Instr.beq 255).wellFormed = true ∧ (Instr.beq 255).fields = .branch 255 ∧
    exec (.beq 255) (boot []) = .next (boot []) ∧ (boot []).pc.toNat + 510 < 65536 ∧ (boot []).pc.toNat % 2 = 0 :=
  ⟨by decide, by decide, next_of (by decide +kernel), by decide +kernel, by decide +kernel⟩
theorem witness_BranchesGoForwardOnly_offset_zero :
    (Instr.br 0).wellFormed = true ∧ (Instr.br 0).fields = .branch 0 ∧ exec (.br 0) (boot []) = .next (boot []) :=
  ⟨by decide, by decide, next_of (by decide +kernel)⟩
theorem witness_WritingR7TransfersControl : resolve ⟨.autoInc, 7⟩ ((boot [0x15C7, 5]).setPc 0x8002) =
    ⟨some (.mem 0x8002), (boot [0x15C7, 5]).setPc 0x8004⟩ := by decide +kernel

/-- `-(R0)` with `R0 = 0` does not resolve, as a source, a destination and beside a register. -/
theorem witness_FailedOperandSkipsTheEffect :
    (Instr.mov ⟨.autoDec, 0⟩ ⟨.direct, 1⟩).fields = .double ⟨.autoDec, 0⟩ ⟨.direct, 1⟩ ∧
    (resolve ⟨.autoDec, 0⟩ (boot [])).loc = none ∧
    (resolve ⟨.autoDec, 0⟩ (resolve ⟨.direct, 1⟩ (boot [])).state).loc = none ∧
    (Instr.neg ⟨.autoDec, 0⟩).fields = .single ⟨.autoDec, 0⟩ ∧
    (Instr.xor 3 ⟨.autoDec, 0⟩).fields = .doubleReg 3 ⟨.autoDec, 0⟩ := by decide +kernel
theorem witness_FailedOperandSkipsTheEffect_step :
    (boot [0x0A20]).cfg.romBase ≤ (boot [0x0A20]).pc.toNat ∧
    (boot [0x0A20]).pc.toNat + 2 ≤ (boot [0x0A20]).cfg.romBase + (boot [0x0A20]).romLen ∧
    decode (u16 (wordAt (boot [0x0A20]) (boot [0x0A20]).pc.toNat)) = .instr (.clr ⟨.autoDec, 0⟩) := by decide +kernel

/-- The number in `r1`. -/
def inR1 (s : State) : Nat := (s.reg 1).toNat

/-- The sum an index operand on `r1` forms, with the index word at `pc`. -/
def sumR1 (s : State) : Int :=
  indexSum s.cfg.indexArith (inR1 (s.setPc (u16 (s.pc.toNat + 2)))) (wordAt s s.pc.toNat)

/-- `r1 = 0x1000`, index word 2, and the pointer at `0x1002` out of bounds. -/
def badPointer : State := memWrite (resolverState 2 0x1000) 0x1002 0xFFFF

theorem witness_DirectAndDeferredModes :
    InBounds (resolverState 0 0xFFFE) (inR1 (resolverState 0 0xFFFE)) ∧
    ¬ InBounds (resolverState 0 0xFFFF) (inR1 (resolverState 0 0xFFFF)) := by
  unfold InBounds; decide +kernel
theorem witness_AutoIncrementModes :
    (InBounds (resolverState 0 0) (inR1 (resolverState 0 0)) ∧
      InBounds (resolverState 0 0) (wordAt (resolverState 0 0) (inR1 (resolverState 0 0)))) ∧
    ¬ InBounds (resolverState 0 0xFFFF) (inR1 (resolverState 0 0xFFFF)) ∧
    (InBounds (resolverState 0xFFFF 0x8002) (inR1 (resolverState 0xFFFF 0x8002)) ∧
      ¬ InBounds (resolverState 0xFFFF 0x8002) (wordAt (resolverState 0xFFFF 0x8002) (inR1 (resolverState 0xFFFF 0x8002)))) := by
  unfold InBounds; decide +kernel

/-- Registers at 2 and at 1; on the smaller machine, the last one in bounds after the decrement and the first one not; a
pointer out of bounds. -/
theorem witness_AutoDecrementModes :
    (2 ≤ inR1 (resolverState 0 2) ∧ InBounds (resolverState 0 2) (inR1 (resolverState 0 2) - 2 : Nat) ∧
      InBounds (resolverState 0 2) (wordAt (resolverState 0 2) (inR1 (resolverState 0 2) - 2))) ∧
    inR1 (resolverState 0 1) < 2 ∧
    (2 ≤ inR1 ((bootWith small []).setReg 1 0x5000) ∧
      InBounds ((bootWith small []).setReg 1 0x5000) (inR1 ((bootWith small []).setReg 1 0x5000) - 2 : Nat)) ∧
    (2 ≤ inR1 ((bootWith small []).setReg 1 0x5001) ∧
      ¬ InBounds ((bootWith small []).setReg 1 0x5001) (inR1 ((bootWith small []).setReg 1 0x5001) - 2 : Nat)) ∧
    (2 ≤ inR1 (resolverState 0xFFFF 0x8004) ∧ InBounds (resolverState 0xFFFF 0x8004) 0x8002 ∧
      ¬ InBounds (resolverState 0xFFFF 0x8004)
        (wordAt (resolverState 0xFFFF 0x8004) (inR1 (resolverState 0xFFFF 0x8004) - 2))) := by
  unfold InBounds; decide +kernel

/-- An index word out of bounds; a sum past `SIZE - 2`; a sum at `SIZE - 2`; a pointer in bounds and not. -/
theorem witness_IndexModes :
    ¬ InBounds ((boot []).setPc 0xFFFF) (((boot []).setPc 0xFFFF).pc.toNat) ∧
    (InBounds (resolverState 0xFFFE 1) (resolverState 0xFFFE 1).pc.toNat ∧
      ¬ InBounds (resolverState 0xFFFE 1) (sumR1 (resolverState 0xFFFE 1))) ∧
    (InBounds (resolverState 0xFFFE 0) (resolverState 0xFFFE 0).pc.toNat ∧
      InBounds (resolverState 0xFFFE 0) (sumR1 (resolverState 0xFFFE 0)) ∧
      InBounds (resolverState 0xFFFE 0) (wordAt (resolverState 0xFFFE 0) (sumR1 (resolverState 0xFFFE 0)).toNat)) ∧
    (InBounds badPointer badPointer.pc.toNat ∧ InBounds badPointer (sumR1 badPointer) ∧
      ¬ InBounds badPointer (wordAt badPointer (sumR1 badPointer).toNat)) := by
  unfold InBounds; decide +kernel

/-- A negative sum under `Signed`. -/
theorem witness_IndexModes_negative :
    InBounds ((bootWith (indexing .signed) [0xFFFE])) (bootWith (indexing .signed) [0xFFFE]).pc.toNat ∧
    ¬ InBounds (bootWith (indexing .signed) [0xFFFE]) (sumR1 (bootWith (indexing .signed) [0xFFFE])) := by
  unfold InBounds; decide +kernel

theorem witness_ResolutionFootprint :
    ¬ ResolutionWrites ⟨.autoInc, 1⟩ 7 ∧ ¬ ResolutionWrites ⟨.index, 1⟩ 1 ∧
    (resolve ⟨.direct, 7⟩ (boot [])).loc = some (.reg 7) ∧
    (resolve ⟨.autoInc, 1⟩ ((boot []).setReg 1 0xFFFE)).loc = some (.mem 0xFFFE) := by
  unfold ResolutionWrites; decide +kernel

/-- Modes 1 to 5 on `0xFFFF` or 0; mode 6 with its index word out of bounds, and read. -/
theorem witness_FailedResolutionRollsBack :
    (resolve ⟨.deferred, 1⟩ ((boot []).setReg 1 0xFFFF)).loc = none ∧
    (resolve ⟨.autoIncDeferred, 7⟩ (resolverState 0xFFFF 0)).loc = none ∧
    (resolve ⟨.autoDecDeferred, 1⟩ (resolverState 0xFFFF 0x8004)).loc = none ∧
    ((resolve ⟨.index, 1⟩ ((boot []).setPc 0xFFFF)).loc = none ∧ ¬ InBounds ((boot []).setPc 0xFFFF) 0xFFFF) ∧
    ((resolve ⟨.indexDeferred, 1⟩ (resolverState 0xFFFE 1)).loc = none ∧ InBounds (resolverState 0xFFFE 1) 0x8002) := by
  unfold InBounds; decide +kernel

/-- Two increments across the top of the space; three decrements down to 0 (95_test_vectors.md V4). -/
theorem witness_RepeatedAutoResolutionsMoveByTwo :
    (resolveTimes ⟨.autoInc, 1⟩ 2 ((boot []).setReg 1 0xFFFC)).map (fun t => t.reg 1) = some 0 ∧
    (resolveTimes ⟨.autoIncDeferred, 1⟩ 2 ((boot []).setReg 1 0xFFFC)).map (fun t => t.reg 1) = some 0 ∧
    (resolveTimes ⟨.autoDec, 1⟩ 3 ((boot []).setReg 1 6)).map (fun t => t.reg 1) = some 0 ∧
    (resolveTimes ⟨.autoDecDeferred, 1⟩ 3 ((boot []).setReg 1 6)).map (fun t => t.reg 1) = some 0 := by decide +kernel
theorem witness_IndexReadingsAgreeInRange :
    (resolverState 0x7FFF 0x7FFF).cfg.wf = true ∧ InBounds (resolverState 0x7FFF 0x7FFF) 0x8002 ∧
    InBounds (resolverState 0x7FFF 0x7FFF) (0x7FFF + wordAt (resolverState 0x7FFF 0x7FFF) 0x8002 : Nat) ∧
    wordAt (resolverState 0x7FFF 0x7FFF) 0x8002 ≤ 0x7FFF := by
  unfold InBounds; decide +kernel
theorem witness_EffectSeesResolutionSideEffects :
    InBounds ((boot []).setReg 0 0) 0 ∧ InBounds ((boot []).setReg 0 0xFFFE) 0xFFFE ∧
    (2 ≤ (((boot []).setReg 0 2).reg 0).toNat ∧ InBounds ((boot []).setReg 0 2) (2 - 2)) := by
  unfold InBounds; decide +kernel

/-- `MOV R2, (R1)+` stores to memory, `MOV (R1)+, R2` to a register, `MOV #1, -(R0)` skips; XOR likewise. -/
theorem witness_StoringDoubleFrame :
    exec (.mov ⟨.direct, 2⟩ ⟨.autoInc, 1⟩) (ready []) =
      .next (runDouble effectMov ⟨.direct, 2⟩ ⟨.autoInc, 1⟩ (ready [])) ∧
    (resolve ⟨.autoInc, 1⟩ (resolve ⟨.direct, 2⟩ (ready [])).state).loc = some (.mem 0x1000) ∧
    (resolve ⟨.direct, 2⟩ (resolve ⟨.autoInc, 1⟩ (ready [])).state).loc = some (.reg 2) ∧
    (resolve ⟨.autoDec, 0⟩ (resolve ⟨.autoInc, 1⟩ (ready [])).state).loc = none ∧
    ¬ ResolutionWrites ⟨.direct, 2⟩ 7 ∧ ¬ ResolutionWrites ⟨.autoInc, 1⟩ 7 :=
  ⟨rfl, by decide +kernel, by decide +kernel, by decide +kernel, by unfold ResolutionWrites; decide,
    by unfold ResolutionWrites; decide⟩
theorem witness_StoringDoubleFrame_xor :
    exec (.xor 2 ⟨.autoInc, 1⟩) (ready []) = .next (runDoubleReg effectXor 2 ⟨.autoInc, 1⟩ (ready [])) ∧
    (resolve ⟨.autoInc, 1⟩ (ready [])).loc = some (.mem 0x1000) ∧
    (resolve ⟨.direct, 3⟩ (ready [])).loc = some (.reg 3) ∧ (resolve ⟨.autoDec, 0⟩ (ready [])).loc = none :=
  ⟨rfl, by decide +kernel, by decide +kernel, by decide +kernel⟩
theorem witness_ComparingDoubleFrame :
    exec (.cmp ⟨.autoInc, 1⟩ ⟨.autoInc, 1⟩) (ready []) =
      .next (runDouble effectCmp ⟨.autoInc, 1⟩ ⟨.autoInc, 1⟩ (ready [])) ∧
    ¬ ResolutionWrites ⟨.autoInc, 1⟩ 0 ∧
    (resolve ⟨.autoDec, 0⟩ (resolve ⟨.autoInc, 1⟩ (ready [])).state).loc = none :=
  ⟨rfl, by unfold ResolutionWrites; decide, by decide +kernel⟩
theorem witness_SingleFrame :
    exec (.inc ⟨.autoDec, 1⟩) (ready []) = .next (runSingle effectInc ⟨.autoDec, 1⟩ (ready [])) ∧
    (resolve ⟨.autoDec, 1⟩ (ready [])).loc = some (.mem 0x0FFE) ∧
    (resolve ⟨.direct, 7⟩ (ready [])).loc = some (.reg 7) ∧ (resolve ⟨.autoDec, 0⟩ (ready [])).loc = none ∧
    ¬ ResolutionWrites ⟨.autoDec, 1⟩ 0 :=
  ⟨rfl, by decide +kernel, by decide +kernel, by decide +kernel, by unfold ResolutionWrites; decide⟩
theorem witness_HaltAndBranchFrame :
    Instr.halt.fields = .noOperand ∧ exec .halt (boot []) = .next (boot []) ∧ (Instr.br 1).fields = .branch 1 ∧
    exec (.br 1) (boot []) = .next ((boot []).setPc 0x8002) :=
  ⟨rfl, rfl, rfl, next_of (by decide +kernel)⟩

theorem witness_WordAccessIsLittleEndian : Memory.wf (resolverState 0xFFFF 0).mem = true := by decide +kernel

/-- The first and last byte of each region, and the first past the space. -/
theorem witness_RegionsPartitionTheSpace :
    0x3FFF < Config.example17.ramSize ∧ Config.example17.videoBase ≤ 0x4000 ∧ 0x7FFF < Config.example17.romBase ∧
    Config.example17.romBase ≤ 0x8000 ∧ 0xFFFF < Config.example17.size ∧ Config.example17.size ≤ 0x10000 := by decide

/-- `pc = END` below the top; `END = 65536` with `pc` at `0xFFFE` and at 0; the same with `ROM_BASE = 0`. -/
theorem witness_FinishedExactlyAtEnd :
    (boot []).pc.toNat = (boot []).cfg.romBase + (boot []).romLen ∧
    fullRom.cfg.romBase + fullRom.romLen = 65536 ∧ (fullRom.setPc 0xFFFE).pc = 0xFFFE ∧ fullRom.cfg.romBase ≤ 0xFFFE ∧
    (fullRom.setPc 0).pc = 0 ∧ 0 < fullRom.cfg.romBase := by decide +kernel

theorem witness_FinishedExactlyAtEnd_all_rom :
    allRom.cfg.wf = true ∧ allRom.cfg.romBase + allRom.romLen = 65536 ∧ (allRom.setPc 0).pc = 0 ∧
    allRom.cfg.romBase = 0 := by decide +kernel

theorem fault_of {s : State} {r : Fault} {t : State} {o : StepOutcome} (h : hostStep s = .answered (.outcome o) t)
    (hr : (o = .fatalError .addressOutOfRange ∧ r = .addressOutOfRange) ∨ (o = .finished ∧ r = .finished) ∨
      (o = .fatalError .invalidOpcode ∧ r = .invalidOpcode t)) : step s = .fault r := by
  unfold hostStep at h
  split at h <;> rcases hr with ⟨rfl, rfl⟩ | ⟨rfl, rfl⟩ | ⟨rfl, rfl⟩ <;> simp_all

/-- `pc` after reset, and the last byte of the image. -/
theorem witness_FetchOutsideWindowIsFatal :
    step State.reset = .fault .addressOutOfRange ∧ step ((boot [0]).setPc 0x8001) = .fault .addressOutOfRange :=
  ⟨fault_of (t := State.reset) (o := .fatalError .addressOutOfRange) (by decide +kernel) (.inl ⟨rfl, rfl⟩),
    fault_of (t := (boot [0]).setPc 0x8001) (o := .fatalError .addressOutOfRange) (by decide +kernel) (.inl ⟨rfl, rfl⟩)⟩
theorem witness_InvalidOpcodeMovesPcOnly : step (boot [1]) = .fault (.invalidOpcode ((boot [1]).setPc 0x8002)) :=
  fault_of (o := .fatalError .invalidOpcode) (by decide +kernel) (.inr (.inr ⟨rfl, rfl⟩))
theorem witness_StepRunsTheDecodedInstruction :
    (boot [0x0A80]).cfg.romBase ≤ (boot [0x0A80]).pc.toNat ∧
    (boot [0x0A80]).pc.toNat + 2 ≤ (boot [0x0A80]).cfg.romBase + (boot [0x0A80]).romLen ∧
    decode (u16 (wordAt (boot [0x0A80]) (boot [0x0A80]).pc.toNat)) = .instr (.inc ⟨.direct, 0⟩) := by decide +kernel
theorem step_at_end : step (boot []) = .fault .finished :=
  fault_of (t := boot []) (o := .finished) (by decide +kernel) (.inr (.inl ⟨rfl, rfl⟩))

/-- `pc` at END; one past END, and one below it; an illegal and a legal word as the last of the image. -/
theorem witness_StepOutcomePriority :
    (boot [0]).endAddr = 0x8002 ∧ ((boot [0]).setPc 0x8002).pc = 0x8002 ∧
    ((boot [0]).setPc 0x8003).pc.toNat ≠ (boot [0]).endAddr ∧ ¬ (0x8003 + 2 ≤ (boot [0]).endAddr) ∧
    ((boot [0]).setPc 0x8001).pc.toNat ≠ (boot [0]).endAddr ∧ ¬ (0x8001 + 2 ≤ (boot [0]).endAddr) ∧
    ((boot [1]).pc.toNat + 2 = (boot [1]).endAddr ∧ (boot [1]).cfg.romBase ≤ (boot [1]).pc.toNat ∧
      decode (u16 (wordAt (boot [1]) (boot [1]).pc.toNat)) = .rejected .invalidOpcode) ∧
    ((boot [0]).pc.toNat + 2 = (boot [0]).endAddr ∧ (boot [0]).cfg.romBase ≤ (boot [0]).pc.toNat ∧
      decode (u16 (wordAt (boot [0]) (boot [0]).pc.toNat)) = .instr .halt) := by decide +kernel
theorem witness_StepOutcomePriority_finished : step (boot []) = .fault .finished := step_at_end

/-- The state after one HALT. -/
def afterHalt : State := record 0 .halt ((boot [0]).setPc 0x8002)

theorem step_halt : step (boot [0]) = .next afterHalt := next_of (by decide +kernel)

theorem witness_ContinuingStepAppendsItsEntries : step (boot [0]) = .next afterHalt ∧
    (StepOutcome.finished ≠ .continuing ∧ hostStep (boot []) = .answered (.outcome .finished) (boot [])) :=
  ⟨step_halt, by decide, by decide +kernel⟩

/-- A booted machine meets the invariant. -/
theorem boot_inv (ws : List Word) (h : Memory.wf (boot ws).mem = true)
    (hm : (boot ws).mem.all (fun cell => decide (cell.1 < (boot ws).cfg.size)) = true)
    (hl : (boot ws).romLen ≤ (boot ws).cfg.romSize) :
    (boot ws).Inv :=
  ⟨(by decide : Config.example17.wf = true), h,
    fun cell hc => of_decide_eq_true (List.all_eq_true.1 hm cell hc), hl, rfl, rfl,
    fun e he => by cases he⟩

theorem witness_EveryStepKeepsTheInvariant : (boot [0]).Inv ∧ step (boot [0]) = .next afterHalt :=
  ⟨boot_inv _ (by decide +kernel) (by decide +kernel) (by decide +kernel), step_halt⟩
theorem witness_EveryStepKeepsTheInvariant_illegal : (boot [1]).Inv ∧
    step (boot [1]) = .fault (.invalidOpcode ((boot [1]).setPc 0x8002)) :=
  ⟨boot_inv _ (by decide +kernel) (by decide +kernel) (by decide +kernel), witness_InvalidOpcodeMovesPcOnly⟩
theorem witness_EveryTransactionKeepsTheInvariant : (boot [0]).Inv ∧
    transact (.setReg 7 0xFFFF) (boot [0]) = .answered .done ((boot [0]).setReg 7 0xFFFF) :=
  ⟨witness_EveryStepKeepsTheInvariant.1, by decide +kernel⟩

/-- The same machine with other costs and with a longer past. -/
def relabelled (s : State) : State :=
  { s with cfg := { s.cfg with costFetch := 9 }, hist := [⟨.decode, 4⟩], wtrace := [7] }

theorem witness_AccountingIsNeverRead : SameArchitecture (boot [0]) (relabelled (boot [0])) ∧
    (boot [0]).hist ≠ (relabelled (boot [0])).hist ∧ step (boot [0]) = .next afterHalt :=
  ⟨⟨rfl, rfl, rfl, rfl, rfl, rfl, rfl, rfl, rfl⟩, by decide +kernel, step_halt⟩
theorem witness_AccountingIsNeverRead_stops :
    (SameArchitecture (boot []) (relabelled (boot [])) ∧ step (boot []) = .fault .finished) ∧
    (SameArchitecture State.reset (relabelled State.reset) ∧ step State.reset = .fault .addressOutOfRange) ∧
    (SameArchitecture (boot [1]) (relabelled (boot [1])) ∧
      step (boot [1]) = .fault (.invalidOpcode ((boot [1]).setPc 0x8002))) :=
  ⟨⟨⟨rfl, rfl, rfl, rfl, rfl, rfl, rfl, rfl, rfl⟩, step_at_end⟩,
    ⟨⟨rfl, rfl, rfl, rfl, rfl, rfl, rfl, rfl, rfl⟩, witness_FetchOutsideWindowIsFatal.1⟩,
    ⟨⟨rfl, rfl, rfl, rfl, rfl, rfl, rfl, rfl, rfl⟩, witness_InvalidOpcodeMovesPcOnly⟩⟩

/-- 0, 1 and 2 executed steps. -/
def withSteps (k : Nat) : State :=
  { State.reset with
    hist := histOfSteps Config.example17 k
    itrace := List.replicate k ⟨0, .halt, .noOperand⟩
    wtrace := List.replicate k 0 }

theorem withSteps_inv (k : Nat) : (withSteps k).Inv :=
  ⟨(by decide : Config.example17.wf = true), rfl, fun cell hc => (by cases hc), Nat.zero_le _, by simp [withSteps, State.reset], by simp [withSteps],
    fun e he => ⟨.halt, by
      have h := List.eq_of_mem_replicate he
      subst h
      exact ⟨by decide, rfl, rfl⟩⟩⟩

theorem witness_TickTotalsAfterKSteps : ((withSteps 0).Inv ∧ (withSteps 0).wtrace.length = 0) ∧
    ((withSteps 1).Inv ∧ (withSteps 1).wtrace.length = 1) ∧ ((withSteps 2).Inv ∧ 1 < (withSteps 2).wtrace.length) :=
  ⟨⟨withSteps_inv 0, rfl⟩, ⟨withSteps_inv 1, rfl⟩, ⟨withSteps_inv 2, by decide⟩⟩

theorem witness_ResetTransaction :
    0 < (boot []).cfg.romBase ∧ allRom.cfg.romBase = 0 ∧ ({ allRom with romLen := 0 } : State).romLen = 0 ∧
    ({ allRom with romLen := 1 } : State).romLen = 1 ∧
    (boot []).cfg.videoBase ≤ 0x4000 ∧ 0x7FFF < (boot []).cfg.romBase := by decide +kernel
theorem witness_PowerOnState : small.wf = true ∧ Memory.wf [(0, 1), (0x4FFF, 2)] = true ∧
    0x4FFF < small.size ∧ small.romBase ≤ 0x4FFF ∧ small.videoBase ≤ 0x2000 ∧ 0x3FFF < small.romBase := by decide
theorem witness_LoadTransaction : Memory.wf (boot []).mem = true ∧ (boot []).cfg.romSize < 0x8001 ∧
    2 ≤ (boot []).cfg.romSize ∧ 2 ≤ ([1, 2, 3] : List Byte).length := by decide +kernel
theorem witness_LoadThenRomSnapshot : Memory.wf (boot []).mem = true ∧ ([0xDE, 0xAD, 0xBE] : List Byte).length ≤ 3 ∧
    transact (.load [0xDE, 0xAD, 0xBE] 3) (boot []) = .answered .done (loadImage [0xDE, 0xAD, 0xBE] (boot [])) := by
  decide +kernel
theorem witness_SnapshotsReadTheRegions : 0 < (videoSnapshot (boot []) 1).length ∧ 1 < (romSnapshot (boot []) 2).length := by
  decide +kernel
theorem witness_HostAccessors : 7 < 8 ∧ 8 ≤ 8 ∧ ('T' ≠ 'N' ∧ 'T' ≠ 'Z' ∧ 'T' ≠ 'V' ∧ 'T' ≠ 'C') := by decide
theorem witness_BootFetchesTheImage :
    State.reset.cfg.wf = true ∧ Memory.wf State.reset.mem = true ∧
    transact .reset State.reset = .answered .done State.reset ∧
    transact (.load [0x80, 0x0A] 2) State.reset = .answered .done (loadImage [0x80, 0x0A] State.reset) ∧
    transact (.setReg 7 (u16 State.reset.cfg.romBase)) (loadImage [0x80, 0x0A] State.reset) =
      .answered .done ((loadImage [0x80, 0x0A] State.reset).setPc 0x8000) ∧
    decode (u16 (0x80 + 256 * 0x0A)) = .instr (.inc ⟨.direct, 0⟩) ∧
    decode (u16 (0x01 + 256 * 0x00)) = .rejected .invalidOpcode := by decide +kernel
theorem witness_StoresIntoTheFetchWindowAreFetched :
    Memory.wf (boot [0, 0]).mem = true ∧ (boot [0, 0]).cfg.romBase ≤ 0x8002 ∧
    0x8002 + 2 ≤ (boot [0, 0]).cfg.romBase + (boot [0, 0]).romLen ∧ (boot [0, 0]).cfg.romWrite = .store ∧
    (bootWith { Config.example17 with romWrite := .drop } [0, 0]).cfg.romWrite = .drop := by decide +kernel
theorem witness_PlacedWordIsFetched :
    State.reset.cfg.wf = true ∧ Memory.wf State.reset.mem = true ∧ State.reset.romLen ≤ State.reset.cfg.romSize ∧
    fetchValid State.reset State.reset.pc.toNat = false ∧ fetchValid (boot [0]) (boot [0]).pc.toNat = true ∧
    Memory.wf (boot [0]).mem = true ∧ (boot [0]).romLen ≤ (boot [0]).cfg.romSize := by decide +kernel

end Sys2Proof.Tests
end

section
/-! Memory (20_memory.md): a word access byte by byte, `Load`, and the snapshots. -/

namespace Sys2Proof.Machine

open Sys2Proof.Vocabulary

/-! ### Word access -/

theorem wordOfBytes_toNat (lo hi : Byte) : (wordOfBytes lo hi).toNat = lo.toNat + 256 * hi.toNat := by
  rw [wordOfBytes, BitVec.toNat_append, ← Nat.shiftLeft_add_eq_or_of_lt lo.isLt, Nat.shiftLeft_eq]
  omega

theorem memRead_toNat (s : State) (a : Nat) : (memRead s a).toNat = wordAt s a := wordOfBytes_toNat _ _

theorem lowByte_toNat (v : Word) : (lowByte v).toNat = v.toNat % 256 := BitVec.toNat_setWidth _ _

theorem highByte_toNat (v : Word) : (highByte v).toNat = v.toNat / 256 := by
  have h := v.isLt
  rw [highByte, BitVec.truncate_eq_setWidth, BitVec.toNat_setWidth, BitVec.toNat_ushiftRight, Nat.shiftRight_eq_div_pow]
  omega

/-- A byte a CPU write may not change: in ROM under `Drop` (20_memory.md R45). -/
theorem read_memWrite_dropped {s : State} {b : Nat} (hm : Memory.wf s.mem = true)
    (h : s.cfg.romBase ≤ b ∧ s.cfg.romWrite = .drop) (a : Nat) (v : Word) :
    (memWrite s a v).mem.read b = s.mem.read b := by
  rw [memWrite, read_cpuWriteByte (wf_cpuWriteByte hm _ _), read_cpuWriteByte hm, cpuWriteByte_cfg, if_neg, if_neg]
  · rintro ⟨rfl, hk⟩; exact hk h
  · rintro ⟨rfl, hk⟩; exact hk h

theorem read_memWrite_low {s : State} {a : Nat} (hm : Memory.wf s.mem = true)
    (h : ¬ (s.cfg.romBase ≤ a ∧ s.cfg.romWrite = .drop)) (v : Word) :
    (memWrite s a v).mem.read a = lowByte v := by
  rw [memWrite, read_cpuWriteByte_other _ _ (Nat.ne_of_lt (Nat.lt_succ_self a)), read_cpuWriteByte hm, if_pos ⟨rfl, h⟩]

theorem read_memWrite_high {s : State} {a : Nat} (hm : Memory.wf s.mem = true)
    (h : ¬ (s.cfg.romBase ≤ a + 1 ∧ s.cfg.romWrite = .drop)) (v : Word) :
    (memWrite s a v).mem.read (a + 1) = highByte v := by
  rw [memWrite, read_cpuWriteByte (wf_cpuWriteByte hm _ _), cpuWriteByte_cfg, if_pos ⟨rfl, h⟩]

/-- Settles O38: a dropped byte, the low byte, the high byte and every other byte of a CPU write, in turn. -/
theorem wordAccessIsLittleEndian : Obligations.WordAccessIsLittleEndian := by
  intro s a v hm
  refine ⟨memRead_toNat s a, fun b => ?_⟩
  split_ifs with hdrop hlow hhigh
  · rw [read_memWrite_dropped hm hdrop]
  · subst hlow; rw [read_memWrite_low hm hdrop, lowByte_toNat]
  · subst hhigh; rw [read_memWrite_high hm hdrop, highByte_toNat]
  · rw [read_memWrite_other s v hlow hhigh]

/-! ### `Load` -/

theorem hostLoad_tooLong {len : Nat} {s : State} (bytes : List Byte) (h : s.cfg.romSize < len) :
    hostLoad bytes len s = .answered .loadError s := if_pos h

theorem hostLoad_done {bytes : List Byte} {len : Nat} {s : State} (hrom : len ≤ s.cfg.romSize)
    (hlen : len ≤ bytes.length) : hostLoad bytes len s = .answered .done (loadImage (bytes.take len) s) := by
  rw [hostLoad, if_neg (Nat.not_lt.2 hrom), if_neg (Nat.not_lt.2 hlen)]

/-- The bytes of the image stand in ROM from its base (20_memory.md R59). -/
theorem read_loadImage_inside {s : State} {k : Nat} (hm : Memory.wf s.mem = true) (image : List Byte)
    (hk : k < image.length) : some ((loadImage image s).mem.read (s.cfg.romBase + k)) = image[k]? := by
  rw [loadImage, Memory.read_writeBytes hm, if_pos (Nat.le_add_right _ _), Nat.add_sub_cancel_left,
    List.getElem?_eq_getElem hk, Option.getD_some]

/-- A load leaves every byte below ROM and every byte past the image alone. -/
theorem read_loadImage_outside {s : State} {b : Nat} (hm : Memory.wf s.mem = true) (image : List Byte)
    (hb : b < s.cfg.romBase ∨ s.cfg.romBase + image.length ≤ b) :
    (loadImage image s).mem.read b = s.mem.read b := by
  rw [loadImage, Memory.read_writeBytes hm]
  rcases hb with hbelow | habove
  · rw [if_neg (Nat.not_le.2 hbelow)]
  · rw [List.getElem?_eq_none (by omega), Option.getD_none, ite_self]

/-- Settles O53: the state after a `Load` that fits is `loadImage` of the first `len` bytes. -/
theorem loadTransaction : Obligations.LoadTransaction := by
  intro bytes len s hm
  refine ⟨hostLoad_tooLong bytes, fun hrom hlen => ?_⟩
  have himage : (bytes.take len).length = len := List.length_take_of_le hlen
  refine ⟨loadImage (bytes.take len) s, hostLoad_done hrom hlen, fun k hk => ?_, fun b hb => ?_,
    himage, rfl, rfl, rfl, rfl, rfl, rfl⟩
  · rw [read_loadImage_inside hm _ (himage.symm ▸ hk), List.getElem?_take_of_lt hk]
  · exact read_loadImage_outside hm _ (himage.symm ▸ hb)

/-! ### Snapshots -/

@[simp] theorem Memory.length_readBytes (m : Memory) (a n : Nat) : (m.readBytes a n).length = n := by
  simp [Memory.readBytes]

theorem Memory.getElem?_readBytes (m : Memory) (a : Nat) {k n : Nat} (h : k < n) :
    (m.readBytes a n)[k]? = some (m.read (a + k)) := by
  simp [Memory.readBytes, h]

/-- Settles O55: each snapshot is a `readBytes` of its region, and byte `k` of one is the byte at `base + k`. -/
theorem snapshotsReadTheRegions : Obligations.SnapshotsReadTheRegions := by
  intro n s
  have hv : (videoSnapshot s n).length = min n s.cfg.videoSize := Memory.length_readBytes _ _ _
  have hr : (romSnapshot s n).length = min n s.cfg.romSize := Memory.length_readBytes _ _ _
  exact ⟨videoSnapshot s n, romSnapshot s n, rfl, rfl, hv, hr,
    fun _ hk => Memory.getElem?_readBytes _ _ (hk.trans_eq hv),
    fun _ hk => Memory.getElem?_readBytes _ _ (hk.trans_eq hr)⟩

end Sys2Proof.Machine
end

section
/-! Encoding (30_encoding.md): the row a word matches, and the fields of every shape. -/

namespace Sys2Proof

open Sys2Proof.Vocabulary

/-! ### The rows of the table share no word -/

/-- Two rows that match one word agree on the bits that both masks look at. -/
theorem opcode_and_mask_comm {w : Word} {d e : Descriptor} (hd : w &&& d.mask = d.opcode)
    (he : w &&& e.mask = e.opcode) : d.opcode &&& e.mask = e.opcode &&& d.mask := by
  rw [← hd, ← he]; ac_rfl

/-- Of two rows of the table, the opcodes differ in a bit that both masks look at (30_encoding.md R72, decision D10). -/
theorem table_pairwise : table.Pairwise fun d e => d.opcode &&& e.mask ≠ e.opcode &&& d.mask := by decide

theorem row_not_lt {w : Word} {a b : Nat} {d e : Descriptor} (ha : table[a]? = some d) (hb : table[b]? = some e)
    (hd : w &&& d.mask = d.opcode) (he : w &&& e.mask = e.opcode) : ¬ a < b := by
  intro hab
  obtain ⟨ha', rfl⟩ := List.getElem?_eq_some_iff.1 ha
  obtain ⟨hb', rfl⟩ := List.getElem?_eq_some_iff.1 hb
  exact List.pairwise_iff_getElem.1 table_pairwise a b ha' hb' hab (opcode_and_mask_comm hd he)

theorem row_unique {w : Word} {a b : Nat} {d e : Descriptor} (ha : table[a]? = some d) (hb : table[b]? = some e)
    (hd : w &&& d.mask = d.opcode) (he : w &&& e.mask = e.opcode) : a = b :=
  Nat.le_antisymm (Nat.not_lt.1 (row_not_lt hb ha he hd)) (Nat.not_lt.1 (row_not_lt ha hb hd he))

/-- The first match is the only one: a row that accepts the word is the row that matching picks. -/
theorem matchRow_eq_some {w : Word} {d : Descriptor} :
    matchRow w = some d ↔ d ∈ table ∧ w &&& d.mask = d.opcode := by
  refine ⟨matchRow_some, fun ⟨hmem, hd⟩ => ?_⟩
  cases hrow : matchRow w with
  | none => exact absurd hd (matchRow_none.1 hrow d hmem)
  | some e =>
    obtain ⟨hmem', he⟩ := matchRow_some hrow
    obtain ⟨a, ha⟩ := List.mem_iff_getElem?.1 hmem
    obtain ⟨b, hb⟩ := List.mem_iff_getElem?.1 hmem'
    obtain rfl := row_unique ha hb hd he
    exact hb.symm.trans ha

/-- Settles O4: by `row_unique` the first matching row is the only one, so that it comes first is not used. -/
theorem firstMatchingRowDecodes : Obligations.FirstMatchingRowDecodes := by
  intro w
  refine ⟨fun hnone => ?_, fun a d ha hd _ => ?_, fun a b d e => row_unique⟩
  · exact decode_rejected.2 ⟨matchRow_none.2 hnone, rfl⟩
  · have hrow : matchRow w = some d := matchRow_eq_some.2 ⟨List.mem_of_getElem? ha, hd⟩
    exact ⟨d.mnemonic.instr w, decode_instr.2 ⟨d, hrow, rfl⟩, instr_mnemonic _ _⟩

/-! ### Fields as quotients and remainders -/

theorem field3_eq (k : Nat) (w : Word) : field3 k w = w.toNat / 2 ^ k % 8 := by
  have hmask (n : Nat) : n &&& 7 = n % 8 := Nat.and_two_pow_sub_one_eq_mod n 3
  rw [field3, BitVec.toNat_and, BitVec.toNat_ushiftRight, Nat.shiftRight_eq_div_pow]
  exact hmask _

/-- `modes` lists the modes by their mode field (30_encoding.md R70). -/
theorem modes_getElem? : ∀ n < 8, modes[n]? = some (Mode.ofField n) := by decide

theorem regOfField_val {n : Nat} (h : n < 8) : (regOfField n).val = n := Nat.mod_eq_of_lt h

theorem isOperand_operandAt (k : Nat) (w : Word) :
    IsOperand (operandAt k w) (w.toNat / 2 ^ (k + 3) % 8) (w.toNat / 2 ^ k % 8) := by
  rw [operandAt, field3_eq, field3_eq]
  exact ⟨modes_getElem? _ (Nat.mod_lt _ (by decide)), regOfField_val (Nat.mod_lt _ (by decide))⟩

theorem isOperand_dstField (w : Word) : IsOperand (dstField w) (w.toNat / 8 % 8) (w.toNat % 8) := by
  simpa [dstField] using isOperand_operandAt 0 w

theorem isOperand_srcField (w : Word) : IsOperand (srcField w) (w.toNat / 512 % 8) (w.toNat / 64 % 8) :=
  isOperand_operandAt 6 w

/-- XOR's register field is the source's register field (30_encoding.md R66). -/
theorem regField_val (w : Word) : (regField w).val = w.toNat / 64 % 8 := (isOperand_srcField w).2

theorem offField_eq (w : Word) : offField w = u16 (w.toNat % 256) := by
  have hmask : w.toNat &&& 255 = w.toNat % 256 := Nat.and_two_pow_sub_one_eq_mod _ 8
  apply BitVec.eq_of_toNat_eq
  rw [offField, BitVec.toNat_and, u16, BitVec.toNat_ofNat]
  exact hmask.trans (by omega)

theorem fields_of_decode {w : Word} {i : Instr} (h : decode w = .instr i) : i.fields = extract i.mnemonic.shape w := by
  obtain ⟨d, -, rfl⟩ := decode_instr.1 h
  rw [instr_fields, instr_mnemonic]

theorem shape_eq_doubleReg (m : Mnemonic) : m.shape = .doubleReg ↔ m = .xor := by cases m <;> decide

/-- Settles O6: the fields are those that `extract` names, read as numbers. -/
theorem fieldsOfEveryShape : Obligations.FieldsOfEveryShape := fun w =>
  ⟨srcField w, dstField w, regField w, isOperand_dstField w, isOperand_srcField w, regField_val w,
    rfl, rfl, rfl, rfl, congrArg Fields.branch (offField_eq w), fun _ => fields_of_decode, shape_eq_doubleReg⟩

end Sys2Proof
end

section
/-! The execution engine (40_execution_engine.md): the outcomes of a step, the window of a fetch, what a completed step
appends, and an operand that does not resolve. -/

namespace Sys2Proof.Machine

open Sys2Proof.Vocabulary

/-! ### The fetch -/

theorem endAddr_eq (s : State) : s.endAddr = s.cfg.romBase + s.romLen := rfl

theorem memRead_eq_u16 (s : State) (a : Nat) : memRead s a = u16 (wordAt s a) := by
  rw [← memRead_toNat, u16, Nat.mod_eq_of_lt (memRead s a).isLt, BitVec.ofNat_toNat, BitVec.setWidth_eq]

/-- A `pc` in the fetch window is not `END`, so the fetch answers the word there (R83, R84). -/
theorem fetch_in_window {s : State} (hlo : s.cfg.romBase ≤ s.pc.toNat) (hhi : s.pc.toNat + 2 ≤ s.endAddr) :
    fetch s = .word (u16 (wordAt s s.pc.toNat)) (s.setPc (s.pc + 2)) := by
  rw [← memRead_eq_u16]
  rcases fetch_cases s with ⟨hend, -⟩ | ⟨-, hout, -⟩ | ⟨-, -, -, hf⟩
  · omega
  · exact absurd ⟨hlo, hhi⟩ hout
  · exact hf

/-! ### The outcomes of a step -/

/-- No instruction's meaning ends in a fault or a refusal. -/
theorem exec_total (i : Instr) (s : State) : ∃ u, exec i s = .next u := by
  cases i <;> exact ⟨_, rfl⟩

/-- The four ways a step can end, each with what decides it (R92, 60_exceptions.md R144). -/
theorem step_cases (s : State) :
    (s.pc.toNat = s.endAddr ∧ step s = .fault .finished) ∨
    (s.pc.toNat ≠ s.endAddr ∧ ¬ (s.cfg.romBase ≤ s.pc.toNat ∧ s.pc.toNat + 2 ≤ s.endAddr) ∧
      step s = .fault .addressOutOfRange) ∨
    (s.cfg.romBase ≤ s.pc.toNat ∧ s.pc.toNat + 2 ≤ s.endAddr ∧
      decode (u16 (wordAt s s.pc.toNat)) = .rejected .invalidOpcode ∧
      step s = .fault (.invalidOpcode (s.setPc (s.pc + 2)))) ∨
    (s.cfg.romBase ≤ s.pc.toNat ∧ s.pc.toNat + 2 ≤ s.endAddr ∧
      ∃ i u, decode (u16 (wordAt s s.pc.toNat)) = .instr i ∧ exec i (s.setPc (s.pc + 2)) = .next u ∧
        step s = .next (record (u16 (wordAt s s.pc.toNat)) i u)) := by
  rcases fetch_cases s with ⟨hend, hf⟩ | ⟨hne, hout, hf⟩ | ⟨-, hlo, hhi, -⟩
  · exact .inl ⟨hend, by rw [step, hf]⟩
  · exact .inr (.inl ⟨hne, hout, by rw [step, hf]⟩)
  · have hf := fetch_in_window hlo hhi
    cases hd : decode (u16 (wordAt s s.pc.toNat)) with
    | rejected e =>
      obtain ⟨-, rfl⟩ := decode_rejected.1 hd
      exact .inr (.inr (.inl ⟨hlo, hhi, rfl, by simp only [step, hf, hd]⟩))
    | instr i =>
      obtain ⟨u, hu⟩ := exec_total i (s.setPc (s.pc + 2))
      exact .inr (.inr (.inr ⟨hlo, hhi, i, u, rfl, hu, by simp only [step, hf, hd, hu, completing]⟩))

theorem step_finished_iff (s : State) : step s = .fault .finished ↔ s.pc.toNat = s.endAddr := by
  rcases step_cases s with ⟨hend, hst⟩ | ⟨hne, -, hst⟩ | ⟨-, hhi, -, hst⟩ | ⟨-, hhi, i, u, -, -, hst⟩ <;> rw [hst]
  · exact iff_of_true rfl hend
  · exact iff_of_false (by simp) hne
  · exact iff_of_false (by simp) (by omega)
  · exact iff_of_false (by simp) (by omega)

theorem step_addressOutOfRange {s : State} (hne : s.pc.toNat ≠ s.endAddr)
    (hout : ¬ (s.cfg.romBase ≤ s.pc.toNat ∧ s.pc.toNat + 2 ≤ s.endAddr)) : step s = .fault .addressOutOfRange := by
  rcases step_cases s with ⟨hend, -⟩ | ⟨-, -, hst⟩ | ⟨hlo, hhi, -⟩ | ⟨hlo, hhi, -⟩
  · exact absurd hend hne
  · exact hst
  · exact absurd ⟨hlo, hhi⟩ hout
  · exact absurd ⟨hlo, hhi⟩ hout

/-- A step whose word is in the fetch window and decodes continues (R82). -/
theorem step_continues {s : State} {i : Instr} (hlo : s.cfg.romBase ≤ s.pc.toNat) (hhi : s.pc.toNat + 2 ≤ s.endAddr)
    (hd : decode (u16 (wordAt s s.pc.toNat)) = .instr i) : ∃ t, step s = .next t := by
  rcases step_cases s with ⟨hend, -⟩ | ⟨-, hout, -⟩ | ⟨-, -, hrej, -⟩ | ⟨-, -, j, u, -, -, hst⟩
  · omega
  · exact absurd ⟨hlo, hhi⟩ hout
  · rw [hd] at hrej; cases hrej
  · exact ⟨_, hst⟩

/-! ### The outcomes as the host sees them -/

theorem hostStep_continuing {s t : State} (h : step s = .next t) :
    hostStep s = .answered (.outcome .continuing) t := by rw [hostStep, h]

theorem hostStep_finished {s : State} (h : step s = .fault .finished) :
    hostStep s = .answered (.outcome .finished) s := by rw [hostStep, h]

theorem hostStep_addressOutOfRange {s : State} (h : step s = .fault .addressOutOfRange) :
    hostStep s = .answered (.outcome (.fatalError .addressOutOfRange)) s := by rw [hostStep, h]

theorem hostStep_invalidOpcode {s t : State} (h : step s = .fault (.invalidOpcode t)) :
    hostStep s = .answered (.outcome (.fatalError .invalidOpcode)) t := by rw [hostStep, h]

/-- Settles O40: `pc` is below 65536, and at 0xFFFE and at 0 the fetch window decides. -/
theorem finishedExactlyAtEnd : Obligations.FinishedExactlyAtEnd := by
  intro s
  have hiff : step s = .fault .finished ↔ s.pc.toNat = s.cfg.romBase + s.romLen := step_finished_iff s
  refine ⟨hiff, fun hend => hostStep_finished (hiff.2 hend), fun htop => ?_⟩
  have hpc : s.pc.toNat < 65536 := s.pc.isLt
  have hne : s.pc.toNat ≠ s.endAddr := by rw [endAddr_eq]; omega
  refine ⟨fun hfin => hne (hiff.1 hfin), fun h hbase => ?_, fun h hbase => ?_, fun h hbase => ?_⟩
  · have hf : fetch s = _ := fetch_in_window (by simpa [h] using hbase) (by simp [h, endAddr_eq, htop])
    simpa [h] using hf
  · exact step_addressOutOfRange hne fun ⟨hlo, _⟩ => Nat.not_le.2 hbase (by rwa [h] at hlo)
  · have hf : fetch s = _ := fetch_in_window (by simp [h, hbase]) (by simp [h, endAddr_eq, htop])
    simpa [h] using hf

/-! ### What a step appends -/

theorem sameSurroundings_refl (s : State) : SameSurroundings s s := ⟨rfl, rfl, rfl, rfl, rfl⟩

theorem sameSurroundings_setPc (s : State) (v : Word) : SameSurroundings s (s.setPc v) := ⟨rfl, rfl, rfl, rfl, rfl⟩

/-- A step that does not continue leaves the host the same state, or one in which only `pc` has moved. -/
theorem hostStep_stopped {s t : State} {o : StepOutcome} (ho : o ≠ .continuing)
    (h : hostStep s = .answered (.outcome o) t) : t = s ∨ t = s.setPc (s.pc + 2) := by
  rcases step_cases s with ⟨-, hst⟩ | ⟨-, -, hst⟩ | ⟨-, -, -, hst⟩ | ⟨-, -, i, u, -, -, hst⟩
  · rw [hostStep_finished hst] at h; cases h; exact .inl rfl
  · rw [hostStep_addressOutOfRange hst] at h; cases h; exact .inl rfl
  · rw [hostStep_invalidOpcode hst] at h; cases h; exact .inr rfl
  · rw [hostStep_continuing hst] at h; cases h; exact absurd rfl ho

/-- Settles O45: `step_next_surroundings` says what a continuing step appends, and a step that stops writes at most
`pc`. -/
theorem continuingStepAppendsItsEntries : Obligations.ContinuingStepAppendsItsEntries := by
  refine fun s => ⟨fun t hst => ?_, fun o t ho h => ?_⟩
  · obtain ⟨i, hd, hcfg, hrom, hhist, hwt, hit⟩ := step_next_surroundings hst
    rw [memRead_eq_u16] at hd hwt hit
    exact ⟨i, hd, hit, hwt, hhist, hcfg, hrom⟩
  · rcases hostStep_stopped ho h with rfl | rfl
    · exact sameSurroundings_refl _
    · exact sameSurroundings_setPc _ _

/-! ### An operand that does not resolve -/

theorem exec_of_fields_double {i : Instr} {src dst : Operand} (h : i.fields = .double src dst) :
    ∃ effect, ∀ s, exec i s = .next (runDouble effect src dst s) := by
  cases i <;> cases h
  all_goals exact ⟨_, fun _ => rfl⟩

theorem exec_of_fields_single {i : Instr} {dst : Operand} (h : i.fields = .single dst) :
    ∃ effect, ∀ s, exec i s = .next (runSingle effect dst s) := by
  cases i <;> cases h
  all_goals exact ⟨_, fun _ => rfl⟩

theorem exec_of_fields_doubleReg {i : Instr} {reg : RegNum} {dst : Operand} (h : i.fields = .doubleReg reg dst) :
    ∃ effect, ∀ s, exec i s = .next (runDoubleReg effect reg dst s) := by
  cases i <;> cases h
  exact ⟨_, fun _ => rfl⟩

/-- A failed destination skips the effect, whatever it is (R89). -/
theorem runSingle_failed (effect : Location → State → State) {dst : Operand} {s : State}
    (hfail : (resolve dst s).loc = none) : runSingle effect dst s = (resolve dst s).state := by
  rw [runSingle, hfail]

/-- One failed operand of the two skips the effect, whatever it is (R89). -/
theorem runDouble_failed (effect : Location → Location → State → State) {src dst : Operand} {s : State}
    (hfail : (resolve src s).loc = none ∨ (resolve dst (resolve src s).state).loc = none) :
    runDouble effect src dst s = (resolve dst (resolve src s).state).state := by
  rcases runDouble_cases effect src dst s with ⟨-, hskip⟩ | ⟨ls, ld, hsrc, hdst, -⟩
  · exact hskip
  · simp [hsrc, hdst] at hfail

/-- Resolving a source and then a destination changes registers only. -/
theorem onlyRegs_resolve_resolve (src dst : Operand) (s : State) :
    OnlyRegs s (resolve dst (resolve src s).state).state :=
  (resolve_sound src s).state.trans (resolve_sound dst (resolve src s).state).state

/-- Settles O24: each shape runs its effect through `runDouble` or `runSingle`, which skip it when an operand fails;
resolutions write registers only; and `exec` never stops a step. -/
theorem failedOperandSkipsTheEffect : Obligations.FailedOperandSkipsTheEffect := by
  refine fun i s => ⟨fun src dst hi hfail => ?_, fun dst hi hfail => ?_, fun reg dst hi hfail => ?_,
    fun hlo hhi hd => ?_⟩
  · obtain ⟨effect, hexec⟩ := exec_of_fields_double hi
    have hregs := onlyRegs_resolve_resolve src dst s
    exact ⟨_, (hexec s).trans (congrArg _ (runDouble_failed effect hfail)), rfl, hregs.flags, hregs.mem⟩
  · obtain ⟨effect, hexec⟩ := exec_of_fields_single hi
    have hregs := (resolve_sound dst s).state
    exact ⟨_, (hexec s).trans (congrArg _ (runSingle_failed effect hfail)), rfl, hregs.flags, hregs.mem⟩
  · obtain ⟨effect, hexec⟩ := exec_of_fields_doubleReg hi
    have hregs := (resolve_sound dst s).state
    exact ⟨_, (hexec s).trans (congrArg _ (runSingle_failed _ hfail)), rfl, hregs.flags, hregs.mem⟩
  · obtain ⟨t, hst⟩ := step_continues hlo hhi hd
    obtain ⟨_, _, _, _, hhist, hwt, hit⟩ := step_next_surroundings hst
    exact ⟨t, hostStep_continuing hst, by simp [hit], by simp [hwt], by simp [hhist, stepEntries]⟩

end Sys2Proof.Machine
end

section
/-! Addressing modes (41_addressing_modes.md): each mode as the spec's pseudocode decides it, over numbers and bounds;
then the three answers a resolution can give, from which its footprint and its rollback follow. -/

namespace Sys2Proof.Machine

open Sys2Proof.Vocabulary

/-! ### Words and bounds as numbers -/

/-- `Valid` is the bound `0 <= a <= SIZE - 2` (20_memory.md R42). -/
theorem valid_iff_inBounds {s : State} {a : Int} : valid s.cfg a = true ↔ InBounds s a := by
  rw [valid_int, InBounds]; omega

theorem toNat_u16 (n : Nat) : (u16 n).toNat = n % 65536 := by
  rw [u16, BitVec.toNat_ofNat, Nat.mod_mod]

theorem add_two_eq_u16 (v : Word) : v + 2 = u16 (v.toNat + 2) :=
  BitVec.eq_of_toNat_eq (by rw [toNat_u16, BitVec.toNat_add]; rfl)

theorem toNat_sub_two {v : Word} (h : 2 ≤ v.toNat) : (v - 2).toNat = v.toNat - 2 :=
  BitVec.toNat_sub_of_le h

theorem sub_two_eq_u16 {v : Word} (h : 2 ≤ v.toNat) : v - 2 = u16 (v.toNat - 2) :=
  BitVec.eq_of_toNat_eq (by rw [toNat_u16, toNat_sub_two h]; have := v.isLt; omega)

theorem toInt_eq_signed16 (v : Word) : v.toInt = signed16 v.toNat := by
  rw [BitVec.toInt_eq_toNat_cond, signed16]; split_ifs <;> omega

theorem effectiveAddress_eq_indexSum (k : IndexArith) (base x : Word) :
    effectiveAddress k base x = indexSum k base.toNat x.toNat := by
  cases k with
  | unsigned => rfl
  | wrap16 => rfl
  | signed => exact congrArg (_ + ·) (toInt_eq_signed16 x)

/-! ### Modes 0 and 1 -/

/-- Settles O25: mode 1 asks whether the register's value is in bounds. -/
theorem directAndDeferredModes : Obligations.DirectAndDeferredModes := fun _ _ =>
  ⟨rfl, fun ha => if_pos (valid_iff_inBounds.2 ha), fun ha => if_neg (mt valid_iff_inBounds.1 ha)⟩

/-! ### Modes 2 and 3 -/

theorem resolveAutoInc_eq (r : RegNum) (s : State) :
    resolveAutoInc r s = if valid s.cfg (s.reg r).toNat then
      resolvesToMem (s.reg r).toNat (s.setReg r (u16 ((s.reg r).toNat + 2))) else resolutionFails s := by
  rw [← add_two_eq_u16]; rfl

theorem resolveAutoIncDeferred_eq (r : RegNum) (s : State) :
    resolveAutoIncDeferred r s = if valid s.cfg (s.reg r).toNat ∧ valid s.cfg (wordAt s (s.reg r).toNat) then
      resolvesToMem (wordAt s (s.reg r).toNat) (s.setReg r (u16 ((s.reg r).toNat + 2))) else resolutionFails s := by
  rw [← add_two_eq_u16, ← memRead_toNat, ite_and]; rfl

/-- Settles O26: each mode asks for its addresses to be in bounds and bumps the register only then. -/
theorem autoIncrementModes : Obligations.AutoIncrementModes := by
  refine fun r s => ⟨fun ha => ?_, fun ha => ?_, fun ha hp => ?_, fun hfail => ?_⟩
  · exact (resolveAutoInc_eq r s).trans (if_pos (valid_iff_inBounds.2 ha))
  · exact (resolveAutoInc_eq r s).trans (if_neg (mt valid_iff_inBounds.1 ha))
  · exact (resolveAutoIncDeferred_eq r s).trans (if_pos ⟨valid_iff_inBounds.2 ha, valid_iff_inBounds.2 hp⟩)
  · refine (resolveAutoIncDeferred_eq r s).trans (if_neg ?_)
    rwa [valid_iff_inBounds, valid_iff_inBounds, not_and_or]

/-! ### Modes 4 and 5 -/

/-- Adding 2 back to a lowered register gives the state before the resolution (decision D21). -/
theorem setReg_lowered_restore (s : State) (r : RegNum) :
    (s.setReg r (s.reg r - 2)).setReg r (s.reg r - 2 + 2) = s := by
  rw [State.setReg_setReg, BitVec.sub_add_cancel, State.setReg_self]

/-- A pointer is read after the decrement, which changes no byte. -/
theorem wordAt_setReg (s : State) (r : RegNum) (v : Word) (a : Nat) : wordAt (s.setReg r v) a = wordAt s a := rfl

theorem resolveAutoDec_below {r : RegNum} {s : State} (h : (s.reg r).toNat < 2) :
    resolveAutoDec r s = resolutionFails s := if_pos h

theorem resolveAutoDec_eq {r : RegNum} {s : State} (h : 2 ≤ (s.reg r).toNat) :
    resolveAutoDec r s = if valid s.cfg ((s.reg r).toNat - 2 : Nat) then
      resolvesToMem ((s.reg r).toNat - 2) (s.setReg r (u16 ((s.reg r).toNat - 2))) else resolutionFails s := by
  simp only [resolveAutoDec, if_neg (Nat.not_lt.2 h), setReg_lowered_restore, State.reg_setReg_same, State.setReg_cfg,
    toNat_sub_two h, ← sub_two_eq_u16 h]

theorem resolveAutoDecDeferred_below {r : RegNum} {s : State} (h : (s.reg r).toNat < 2) :
    resolveAutoDecDeferred r s = resolutionFails s := if_pos h

theorem resolveAutoDecDeferred_eq {r : RegNum} {s : State} (h : 2 ≤ (s.reg r).toNat) :
    resolveAutoDecDeferred r s =
      if valid s.cfg ((s.reg r).toNat - 2 : Nat) ∧ valid s.cfg (wordAt s ((s.reg r).toNat - 2)) then
        resolvesToMem (wordAt s ((s.reg r).toNat - 2)) (s.setReg r (u16 ((s.reg r).toNat - 2)))
      else resolutionFails s := by
  simp only [resolveAutoDecDeferred, if_neg (Nat.not_lt.2 h), setReg_lowered_restore, State.reg_setReg_same,
    State.setReg_cfg, toNat_sub_two h, ← sub_two_eq_u16 h, ite_and, memRead_toNat,
    wordAt_setReg]

/-- Settles O27: a register below 2 fails at once; from 2 up the decrement does not wrap, and a failure undoes it. -/
theorem autoDecrementModes : Obligations.AutoDecrementModes := by
  refine fun r s => ⟨fun hx ha => ?_, fun hfail => ?_, fun hx ha hp => ?_, fun hfail => ?_⟩
  · exact (resolveAutoDec_eq hx).trans (if_pos (valid_iff_inBounds.2 ha))
  · rcases lt_or_ge (s.reg r).toNat 2 with hx | hx
    · exact resolveAutoDec_below hx
    · refine (resolveAutoDec_eq hx).trans (if_neg ?_)
      rw [valid_iff_inBounds]
      exact hfail.resolve_left (Nat.not_lt.2 hx)
  · exact (resolveAutoDecDeferred_eq hx).trans (if_pos ⟨valid_iff_inBounds.2 ha, valid_iff_inBounds.2 hp⟩)
  · rcases lt_or_ge (s.reg r).toNat 2 with hx | hx
    · exact resolveAutoDecDeferred_below hx
    · refine (resolveAutoDecDeferred_eq hx).trans (if_neg ?_)
      rw [valid_iff_inBounds, valid_iff_inBounds, not_and_or]
      exact hfail.resolve_left (Nat.not_lt.2 hx)

/-! ### Modes 6 and 7 -/

/-- The state with `pc` past the index word. -/
def pastIndexWord (s : State) : State := s.setPc (u16 (s.pc.toNat + 2))

/-- The sum of the index word at `pc` and the base register, read after `pc` has moved (R101, R103). -/
def indexAddress (r : RegNum) (s : State) : Int :=
  indexSum s.cfg.indexArith ((pastIndexWord s).reg r).toNat (wordAt s s.pc.toNat)

theorem advancePc_eq_pastIndexWord (s : State) : s.advancePc = pastIndexWord s := congrArg s.setPc (add_two_eq_u16 s.pc)

theorem effectiveAddress_eq_indexAddress (r : RegNum) (s : State) :
    effectiveAddress s.cfg.indexArith ((pastIndexWord s).reg r) (memRead s s.pc.toNat) = indexAddress r s := by
  rw [effectiveAddress_eq_indexSum, memRead_toNat]; rfl

theorem resolveIndex_eq (r : RegNum) (s : State) :
    resolveIndex r s = if valid s.cfg s.pc.toNat then
      if valid s.cfg (indexAddress r s) then resolvesToMem (indexAddress r s).toNat (pastIndexWord s)
      else resolutionFails (pastIndexWord s)
    else resolutionFails s := by
  rw [← effectiveAddress_eq_indexAddress, ← advancePc_eq_pastIndexWord]; rfl

theorem resolveIndexDeferred_eq (r : RegNum) (s : State) :
    resolveIndexDeferred r s = if valid s.cfg s.pc.toNat then
      if valid s.cfg (indexAddress r s) ∧ valid s.cfg (wordAt s (indexAddress r s).toNat) then
        resolvesToMem (wordAt s (indexAddress r s).toNat) (pastIndexWord s)
      else resolutionFails (pastIndexWord s)
    else resolutionFails s := by
  rw [← effectiveAddress_eq_indexAddress, ← advancePc_eq_pastIndexWord, ← memRead_toNat, ite_and]; rfl

/-- Settles O28: the index word, the sum and, in mode 7, the pointer are checked in turn; `pc` moves after the first
check. -/
theorem indexModes : Obligations.IndexModes := by
  refine fun r s => ⟨fun hi => ⟨?_, ?_⟩, fun hi he => ⟨?_, ?_⟩, fun hi he => ?_, fun hi he hp => ?_, fun hi he hp => ?_⟩
  · exact (resolveIndex_eq r s).trans (if_neg (mt valid_iff_inBounds.1 hi))
  · exact (resolveIndexDeferred_eq r s).trans (if_neg (mt valid_iff_inBounds.1 hi))
  · exact (resolveIndex_eq r s).trans <| (if_pos (valid_iff_inBounds.2 hi)).trans <|
      if_neg (mt valid_iff_inBounds.1 he)
  · exact (resolveIndexDeferred_eq r s).trans <| (if_pos (valid_iff_inBounds.2 hi)).trans <|
      if_neg fun h => he (valid_iff_inBounds.1 h.1)
  · exact (resolveIndex_eq r s).trans <| (if_pos (valid_iff_inBounds.2 hi)).trans <|
      if_pos (valid_iff_inBounds.2 he)
  · exact (resolveIndexDeferred_eq r s).trans <| (if_pos (valid_iff_inBounds.2 hi)).trans <|
      if_pos ⟨valid_iff_inBounds.2 he, valid_iff_inBounds.2 hp⟩
  · exact (resolveIndexDeferred_eq r s).trans <| (if_pos (valid_iff_inBounds.2 hi)).trans <|
      if_neg fun h => hp (valid_iff_inBounds.1 h.2)

/-! ### What a failed resolution leaves -/

/-- The state a failed resolution leaves: `pc` has moved if the failure came after the index word was read (decisions D16,
D17). -/
def afterFailure (o : Operand) (s : State) : State :=
  if (o.mode = .index ∨ o.mode = .indexDeferred) ∧ valid s.cfg s.pc.toNat then pastIndexWord s else s

theorem afterFailure_base {o : Operand} {s : State} (ho : ¬ (o.mode = .index ∨ o.mode = .indexDeferred)) :
    afterFailure o s = s := if_neg fun h => ho h.1

theorem afterFailure_unread {o : Operand} {s : State} (hi : ¬ InBounds s s.pc.toNat) : afterFailure o s = s :=
  if_neg fun h => hi (valid_iff_inBounds.1 h.2)

theorem afterFailure_read {o : Operand} {s : State} (ho : o.mode = .index ∨ o.mode = .indexDeferred)
    (hi : InBounds s s.pc.toNat) : afterFailure o s = pastIndexWord s := if_pos ⟨ho, valid_iff_inBounds.2 hi⟩

/-! ### What every resolution answers -/

/-- The three answers of `Resolve` (R94): the register itself in mode 0, a memory word with no register written but the
one the mode writes, or a failure. -/
inductive Resolution.Answers (o : Operand) (s : State) : Resolution → Prop where
  | register (hmode : o.mode = .direct) : Answers o s ⟨some (.reg o.reg), s⟩
  | memory (a : Nat) (t : State) (hmode : o.mode ≠ .direct)
      (hkeep : ∀ k, ¬ ResolutionWrites o k → t.reg k = s.reg k) : Answers o s ⟨some (.mem a), t⟩
  | failure (t : State) (hmode : o.mode ≠ .direct) (hleft : t = afterFailure o s) : Answers o s ⟨none, t⟩

open Resolution (Answers)

/-- Every memory mode ends in a last check. -/
theorem answers_ite {o : Operand} {s t u : State} {a : Nat} {c : Prop} [Decidable c] (hmode : o.mode ≠ .direct)
    (hkeep : ∀ k, ¬ ResolutionWrites o k → t.reg k = s.reg k) (hleft : u = afterFailure o s) :
    Answers o s (if c then resolvesToMem a t else resolutionFails u) := by
  split
  · exact .memory a t hmode hkeep
  · exact .failure u hmode hleft

/-- The last check of modes 2 to 5. -/
theorem answers_ite_setReg {o : Operand} {s : State} {v : Word} {a : Nat} {c : Prop} [Decidable c]
    (hmode : o.mode = .autoInc ∨ o.mode = .autoIncDeferred ∨ o.mode = .autoDec ∨ o.mode = .autoDecDeferred) :
    Answers o s (if c then resolvesToMem a (s.setReg o.reg v) else resolutionFails s) := by
  refine answers_ite (fun h => ?_) (fun k hk => ?_) (afterFailure_base fun h => ?_).symm
  · simp [h] at hmode
  · exact State.reg_setReg_other s _ k v fun hreg => hk (.inl ⟨hmode, hreg⟩)
  · rcases h with h | h <;> simp [h] at hmode

/-- The checks of modes 6 and 7, of which the first is that of `pc`. -/
theorem answers_ite_index {o : Operand} {s : State} {a : Nat} {c : Prop} [Decidable c]
    (hmode : o.mode = .index ∨ o.mode = .indexDeferred) :
    Answers o s (if valid s.cfg s.pc.toNat then
      if c then resolvesToMem a (pastIndexWord s) else resolutionFails (pastIndexWord s) else resolutionFails s) := by
  have hmem : o.mode ≠ .direct := fun h => by simp [h] at hmode
  split
  · next hi =>
    refine answers_ite hmem (fun k hk => ?_) (afterFailure_read hmode (valid_iff_inBounds.1 hi)).symm
    exact State.reg_setPc_other s k _ fun hpc => hk (.inr ⟨hmode, hpc⟩)
  · next hi => exact .failure s hmem (afterFailure_unread (mt valid_iff_inBounds.2 hi)).symm

theorem resolve_answers (o : Operand) (s : State) : Answers o s (resolve o s) := by
  obtain ⟨m, r⟩ := o
  cases m with
  | direct => exact .register rfl
  | deferred =>
    exact answers_ite (by simp) (fun _ _ => rfl) (afterFailure_base (by simp)).symm
  | autoInc => exact answers_ite_setReg (.inl rfl)
  | autoIncDeferred =>
    rw [resolve, resolveAutoIncDeferred_eq]
    exact answers_ite_setReg (.inr (.inl rfl))
  | autoDec =>
    rw [resolve]
    rcases lt_or_ge (s.reg r).toNat 2 with hx | hx
    · rw [resolveAutoDec_below hx]
      exact .failure s (by simp) (afterFailure_base (by simp)).symm
    · rw [resolveAutoDec_eq hx]
      exact answers_ite_setReg (.inr (.inr (.inl rfl)))
  | autoDecDeferred =>
    rw [resolve]
    rcases lt_or_ge (s.reg r).toNat 2 with hx | hx
    · rw [resolveAutoDecDeferred_below hx]
      exact .failure s (by simp) (afterFailure_base (by simp)).symm
    · rw [resolveAutoDecDeferred_eq hx]
      exact answers_ite_setReg (.inr (.inr (.inr rfl)))
  | index =>
    rw [resolve, resolveIndex_eq]
    exact answers_ite_index (.inl rfl)
  | indexDeferred =>
    rw [resolve, resolveIndexDeferred_eq]
    exact answers_ite_index (.inr rfl)

/-! ### Footprint and rollback -/

/-- A failed resolution has moved `pc`, which modes 6 and 7 may write, or nothing. -/
theorem reg_afterFailure (o : Operand) (s : State) (k : RegNum) (hk : ¬ ResolutionWrites o k) :
    (afterFailure o s).reg k = s.reg k := by
  rw [afterFailure]
  split
  · next h => exact State.reg_setPc_other s k _ fun hpc => hk (.inr ⟨h.1, hpc⟩)
  · rfl

/-- Settles O29: `resolve_sound` bounds what changes to registers and addresses to valid ones; which register and which
kind of location, each of the three answers says. -/
theorem resolutionFootprint : Obligations.ResolutionFootprint := by
  intro o s
  obtain ⟨hregs, hinside⟩ := resolve_sound o s
  refine ⟨hregs.mem, hregs.flags, ⟨hregs.cfg, hregs.romLen, hregs.hist, hregs.itrace, hregs.wtrace⟩, ?_⟩
  have hbounds (a : Nat) (ha : (resolve o s).loc = some (.mem a)) : InBounds s a :=
    valid_iff_inBounds.1 ((valid_nat _ _).2 (hinside a ha))
  have h := resolve_answers o s
  generalize resolve o s = x at h hbounds
  cases h with
  | register hmode => exact ⟨fun _ _ => rfl, fun k hk => by cases hk; exact ⟨hmode, rfl⟩, nofun⟩
  | memory a t hmode hkeep => exact ⟨hkeep, nofun, fun b hb => ⟨hbounds b hb, hmode⟩⟩
  | failure t hmode hleft =>
    subst hleft
    exact ⟨reg_afterFailure o s, nofun, nofun⟩

theorem resolve_failed {o : Operand} {s : State} (hfail : (resolve o s).loc = none) :
    o.mode ≠ .direct ∧ (resolve o s).state = afterFailure o s := by
  have h := resolve_answers o s
  generalize resolve o s = x at h hfail
  cases h with
  | register | memory => cases hfail
  | failure t hmode hleft => exact ⟨hmode, hleft⟩

theorem resolveDouble_state (src dst : Operand) (s : State) :
    (resolveDouble src dst s).2 = (resolve dst (resolve src s).state).state := by
  simp only [resolveDouble]; split <;> rfl

theorem resolveDouble_fails_iff (src dst : Operand) (s : State) :
    (resolveDouble src dst s).1 = none ↔
      (resolve src s).loc = none ∨ (resolve dst (resolve src s).state).loc = none := by
  simp only [resolveDouble]
  cases (resolve src s).loc <;> cases (resolve dst (resolve src s).state).loc <;> simp

/-- Settles O30: a failure leaves `afterFailure`, and a `Double` step takes the destination's state whatever was found. -/
theorem failedResolutionRollsBack : Obligations.FailedResolutionRollsBack := by
  refine ⟨fun o s hfail => ?_, fun src dst s => ⟨resolveDouble_state src dst s, resolveDouble_fails_iff src dst s⟩⟩
  obtain ⟨hmode, hleft⟩ := resolve_failed hfail
  rw [hleft]
  exact ⟨hmode, fun h6 h7 => afterFailure_base (not_or.2 ⟨h6, h7⟩), fun ho =>
    ⟨afterFailure_unread, afterFailure_read ho⟩⟩

end Sys2Proof.Machine
end

section
/-! Double-operand instructions (42_double_operand.md): the words of a row, the flags and results as numbers, and what
an instruction whose operands resolve answers. -/

namespace Sys2Proof.Machine

open Sys2Proof.Vocabulary

/-! ### The words of a row -/

/-- No two rows of the table share a mnemonic. -/
theorem row_eq_of_mnemonic_eq : ∀ d ∈ table, ∀ e ∈ table, d.mnemonic = e.mnemonic → d = e := by decide

/-- A row's mask and opcode match exactly the words of its mnemonic, because rows share neither words nor mnemonics. -/
theorem encodedAs_of_mem_table {mask opcode : Word} {sh : Shape} {m : Mnemonic}
    (hrow : ⟨mask, opcode, sh, m⟩ ∈ table) : EncodedAs mask opcode m := by
  refine fun w => ⟨fun hw => ?_, fun ⟨i, hi, hm⟩ => ?_⟩
  · exact ⟨m.instr w, decode_instr.2 ⟨_, matchRow_eq_some.2 ⟨hrow, hw⟩, rfl⟩, instr_mnemonic m w⟩
  · obtain ⟨d, hmatch, rfl⟩ := decode_instr.1 hi
    obtain ⟨hd, hw⟩ := matchRow_some hmatch
    obtain rfl := row_eq_of_mnemonic_eq d hd _ hrow (by simpa using hm)
    exact hw

/-! ### Words as numbers -/

theorem u16_toNat (v : Word) : u16 v.toNat = v :=
  BitVec.eq_of_toNat_eq ((toNat_u16 _).trans (Nat.mod_eq_of_lt v.isLt))

theorem msb_eq_bit15 (v : Word) : v.msb = bit15 v.toNat := BitVec.msb_eq_decide v

theorem toNat_sub_word (v w : Word) : (v - w).toNat = (v.toNat + 65536 - w.toNat) % 65536 := by
  have := w.isLt
  rw [BitVec.toNat_sub]
  omega

theorem toNat_add_word (v w : Word) : (v + w).toNat = (v.toNat + w.toNat) % 65536 := BitVec.toNat_add v w

theorem toNat_not_and (v w : Word) : (~~~v &&& w).toNat = (65535 - v.toNat) &&& w.toNat := by
  rw [BitVec.toNat_and, BitVec.toNat_not]

/-! ### Flags as numbers -/

/-- `SetNZ` (R108). -/
theorem Flags.setNZ_eq (f : Flags) (v : Word) :
    f.setNZ v = { n := bit15 v.toNat, z := decide (v.toNat = 0), v := f.v, c := f.c } := by
  have hzero : (v == 0) = decide (v.toNat = 0) := Bool.eq_iff_iff.2 (by simp [BitVec.toNat_eq])
  rw [setNZ, msb_eq_bit15, hzero]

theorem Flags.logic_eq (f : Flags) {v : Word} {n : Nat} (hv : v.toNat = n) :
    f.logic v = { n := bit15 n, z := decide (n = 0), v := false, c := f.c } := by
  rw [logic, setNZ_eq, hv]

theorem Flags.cmp_eq (f : Flags) (s d : Word) :
    f.cmp s d = { n := bit15 (s - d).toNat, z := decide ((s - d).toNat = 0),
                  v := (bit15 s.toNat != bit15 d.toNat) && (bit15 (s - d).toNat == bit15 d.toNat),
                  c := decide (s.toNat < d.toNat) } := by
  simp only [cmp, setNZ_eq, msb_eq_bit15]

theorem Flags.add_eq (f : Flags) (s d : Word) :
    f.add s d = { n := bit15 (s + d).toNat, z := decide ((s + d).toNat = 0),
                  v := (bit15 s.toNat == bit15 d.toNat) && (bit15 (s + d).toNat != bit15 s.toNat),
                  c := decide (65536 ≤ s.toNat + d.toNat) } := by
  simp only [add, setNZ_eq, msb_eq_bit15, Nat.reducePow]

theorem Flags.sub_eq (f : Flags) (s d : Word) :
    f.sub s d = { n := bit15 (d - s).toNat, z := decide ((d - s).toNat = 0),
                  v := (bit15 s.toNat != bit15 d.toNat) && (bit15 (d - s).toNat == bit15 s.toNat),
                  c := decide (d.toNat < s.toNat) } := by
  simp only [sub, setNZ_eq, msb_eq_bit15]

/-! ### Signed overflow -/

/-- A sum overflows exactly when both operands have one sign and the result mod 2^16 has the other (R114). -/
theorem add_overflow_iff {a d : Nat} (ha : a < 65536) (hd : d < 65536) :
    ((bit15 a == bit15 d) && (bit15 ((a + d) % 65536) != bit15 a)) = true ↔
      signedOverflow (signed16 a + signed16 d) := by
  simp only [bit15, signed16, signedOverflow, Bool.and_eq_true, beq_iff_eq, bne_iff_ne, ne_eq, decide_eq_decide]
  split_ifs <;> omega

/-- A difference overflows exactly when the operands have different signs and the result mod 2^16 has that of the
subtrahend (R110, R115). -/
theorem sub_overflow_iff {a d : Nat} (ha : a < 65536) (hd : d < 65536) :
    ((bit15 a != bit15 d) && (bit15 ((a + 65536 - d) % 65536) == bit15 d)) = true ↔
      signedOverflow (signed16 a - signed16 d) := by
  simp only [bit15, signed16, signedOverflow, Bool.and_eq_true, beq_iff_eq, bne_iff_ne, ne_eq, decide_eq_decide]
  split_ifs <;> omega

/-! ### Operands that resolve -/

theorem flags_resolve {o : Operand} {s t : State} {l : Location} (h : resolve o s = ⟨some l, t⟩) :
    t.flags = s.flags := by
  simpa [h] using (resolve_sound o s).state.flags

theorem flags_resolve_resolve {src dst : Operand} {s s1 s2 : State} {ls ld : Location}
    (hsrc : resolve src s = ⟨some ls, s1⟩) (hdst : resolve dst s1 = ⟨some ld, s2⟩) : s2.flags = s.flags :=
  (flags_resolve hdst).trans (flags_resolve hsrc)

/-- Two operands that resolve: the effect runs on both locations, in the state after both resolutions (R87, R88). -/
theorem runDouble_resolved (effect : Location → Location → State → State) {src dst : Operand} {s s1 s2 : State}
    {ls ld : Location} (hsrc : resolve src s = ⟨some ls, s1⟩) (hdst : resolve dst s1 = ⟨some ld, s2⟩) :
    runDouble effect src dst s = effect ls ld s2 := by
  simp only [runDouble, resolveDouble, hsrc, hdst]

theorem runSingle_resolved (effect : Location → State → State) {dst : Operand} {s s1 : State} {ld : Location}
    (hdst : resolve dst s = ⟨some ld, s1⟩) : runSingle effect dst s = effect ld s1 := by
  rw [runSingle, hdst]

/-! ### The instructions -/

/-- The effect of MOV, BIC, BIS and XOR, whose result `r` is stored and sets the flags (R109, R112, R113, R116). -/
theorem store_logic_eq {st : State} {ld : Location} {r : Word} {n : Nat} (hr : r.toNat = n) :
    (locWrite st ld r).setFlags (st.flags.logic r) = (locWrite st ld (u16 n)).setFlags
      { n := bit15 n, z := decide (n = 0), v := false, c := st.flags.c } := by
  rw [Flags.logic_eq _ hr, ← hr, u16_toNat]

/-- Settles O7: the result is the source's value itself. -/
theorem movResult : Obligations.MovResult := by
  refine ⟨encodedAs_of_mem_table (sh := .double) (by decide), fun src dst s s1 s2 ls ld hsrc hdst => ?_⟩
  rw [← flags_resolve_resolve hsrc hdst]
  exact congrArg _ ((runDouble_resolved effectMov hsrc hdst).trans (store_logic_eq rfl))

/-- Settles O8: CMP subtracts the destination, so its V is the overflow of `sub_overflow_iff`. -/
theorem cmpResult : Obligations.CmpResult := by
  refine ⟨encodedAs_of_mem_table (sh := .double) (by decide), fun src dst s s1 s2 ls ld hsrc hdst => ⟨?_, ?_⟩⟩
  · rw [← toNat_sub_word, ← Flags.cmp_eq s2.flags]
    exact congrArg _ (runDouble_resolved effectCmp hsrc hdst)
  · exact sub_overflow_iff (locRead s2 ls).isLt (locRead s2 ld).isLt

/-- Settles O9: only the flags of the AND are set. -/
theorem bitResult : Obligations.BitResult := by
  refine ⟨encodedAs_of_mem_table (sh := .double) (by decide), fun src dst s s1 s2 ls ld hsrc hdst => ?_⟩
  rw [← flags_resolve_resolve hsrc hdst]
  exact congrArg _ ((runDouble_resolved effectBit hsrc hdst).trans
    (congrArg s2.setFlags (Flags.logic_eq _ (BitVec.toNat_and _ _))))

/-- Settles O10: `toNat_not_and` gives the result as a number. -/
theorem bicResult : Obligations.BicResult := by
  refine ⟨encodedAs_of_mem_table (sh := .double) (by decide), fun src dst s s1 s2 ls ld hsrc hdst => ?_⟩
  rw [← flags_resolve_resolve hsrc hdst]
  exact congrArg _ ((runDouble_resolved effectBic hsrc hdst).trans (store_logic_eq (toNat_not_and _ _)))

/-- Settles O11: the result is the OR of the two numbers. -/
theorem bisResult : Obligations.BisResult := by
  refine ⟨encodedAs_of_mem_table (sh := .double) (by decide), fun src dst s s1 s2 ls ld hsrc hdst => ?_⟩
  rw [← flags_resolve_resolve hsrc hdst]
  exact congrArg _ ((runDouble_resolved effectBis hsrc hdst).trans (store_logic_eq (BitVec.toNat_or _ _)))

/-- Settles O12: the stored sum and its flags as numbers; V by `add_overflow_iff`. -/
theorem addResult : Obligations.AddResult := by
  refine ⟨encodedAs_of_mem_table (sh := .double) (by decide), fun src dst s s1 s2 ls ld hsrc hdst => ⟨?_, ?_⟩⟩
  · rw [← toNat_add_word, u16_toNat, ← Flags.add_eq s2.flags]
    exact congrArg _ (runDouble_resolved effectAdd hsrc hdst)
  · exact add_overflow_iff (locRead s2 ls).isLt (locRead s2 ld).isLt

/-- Settles O13: SUB subtracts the source, so its V is the overflow of `sub_overflow_iff`, operands exchanged. -/
theorem subResult : Obligations.SubResult := by
  refine ⟨encodedAs_of_mem_table (sh := .double) (by decide), fun src dst s s1 s2 ls ld hsrc hdst => ⟨?_, ?_⟩⟩
  · rw [← toNat_sub_word, u16_toNat, ← Flags.sub_eq s2.flags]
    exact congrArg _ (runDouble_resolved effectSub hsrc hdst)
  · rw [bne_comm]
    exact sub_overflow_iff (locRead s2 ld).isLt (locRead s2 ls).isLt

/-- Settles O14: XOR runs as a single-operand instruction; its effect reads the source after the resolution. -/
theorem xorResult : Obligations.XorResult := by
  refine ⟨encodedAs_of_mem_table (sh := .doubleReg) (by decide), fun reg dst s s1 ld hdst => ?_⟩
  rw [← flags_resolve hdst]
  exact congrArg _ ((runSingle_resolved (effectXor (.reg reg)) hdst).trans (store_logic_eq (BitVec.toNat_xor _ _)))

end Sys2Proof.Machine
end

section
/-! Single-operand instructions (43_single_operand.md): the flags and results as numbers, and the operands whose result
leaves the signed range. -/

namespace Sys2Proof.Machine

open Sys2Proof.Vocabulary

/-! ### Words as numbers -/

theorem beq_eq_decide_toNat (v w : Word) : (v == w) = decide (v.toNat = w.toNat) := by
  rw [Bool.eq_iff_iff, beq_iff_eq, decide_eq_true_iff, BitVec.toNat_inj]

theorem toNat_add_one (v : Word) : (v + 1).toNat = (v.toNat + 1) % 65536 := toNat_add_word v 1

theorem toNat_sub_one (v : Word) : (v - 1).toNat = (v.toNat + 65535) % 65536 := toNat_sub_word v 1

theorem toNat_zero_sub (v : Word) : (0 - v).toNat = (65536 - v.toNat) % 65536 := toNat_sub_word 0 v

/-! ### Flags as numbers -/

theorem Flags.inc_eq (f : Flags) (d : Word) :
    f.inc d = { n := bit15 (d + 1).toNat, z := decide ((d + 1).toNat = 0),
                v := decide (d.toNat = 0x7FFF), c := f.c } := by
  rw [inc, setNZ_eq, beq_eq_decide_toNat]
  rfl

theorem Flags.dec_eq (f : Flags) (d : Word) :
    f.dec d = { n := bit15 (d - 1).toNat, z := decide ((d - 1).toNat = 0),
                v := decide (d.toNat = 0x8000), c := f.c } := by
  rw [dec, setNZ_eq, beq_eq_decide_toNat]
  rfl

theorem Flags.neg_eq (f : Flags) (d : Word) :
    f.neg d = { n := bit15 (0 - d).toNat, z := decide ((0 - d).toNat = 0),
                v := decide ((0 - d).toNat = 0x8000), c := decide ((0 - d).toNat ≠ 0) } := by
  simp only [neg, setNZ_eq, bne, beq_eq_decide_toNat, ne_eq, decide_not]
  rfl

/-! ### Signed overflow -/

/-- The signed range, and the words at its two ends: only there can INC, DEC and NEG overflow. -/
theorem signed16_range {d : Nat} (hd : d < 65536) :
    (-32768 ≤ signed16 d ∧ signed16 d ≤ 32767) ∧
      (signed16 d = 32767 ↔ d = 0x7FFF) ∧ (signed16 d = -32768 ↔ d = 0x8000) := by
  rw [signed16]
  split <;> omega

theorem inc_overflow_iff {d : Nat} (hd : d < 65536) : d = 0x7FFF ↔ signedOverflow (signed16 d + 1) := by
  have := signed16_range hd
  rw [signedOverflow]
  omega

theorem dec_overflow_iff {d : Nat} (hd : d < 65536) : d = 0x8000 ↔ signedOverflow (signed16 d - 1) := by
  have := signed16_range hd
  rw [signedOverflow]
  omega

/-- The result of NEG is `0x8000` exactly when the operand is. -/
theorem neg_overflow_iff {d : Nat} (hd : d < 65536) :
    (65536 - d) % 65536 = 0x8000 ↔ signedOverflow (- signed16 d) := by
  have := signed16_range hd
  rw [signedOverflow]
  omega

/-! ### The instructions -/

/-- Settles O15: nothing depends on the old value. -/
theorem clrResult : Obligations.ClrResult :=
  ⟨encodedAs_of_mem_table (sh := .single) (by decide), fun _ _ _ _ hdst =>
    congrArg _ (runSingle_resolved effectClr hdst)⟩

/-- Settles O16: the increment overflows at the upper end of the signed range. -/
theorem incResult : Obligations.IncResult := by
  refine ⟨encodedAs_of_mem_table (sh := .single) (by decide), fun dst s s1 ld hdst => ⟨?_, ?_⟩⟩
  · rw [← toNat_add_one, u16_toNat, ← flags_resolve hdst, ← Flags.inc_eq]
    exact congrArg _ (runSingle_resolved effectInc hdst)
  · exact inc_overflow_iff (locRead s1 ld).isLt

/-- Settles O17: the decrement overflows at the lower end of the signed range. -/
theorem decResult : Obligations.DecResult := by
  refine ⟨encodedAs_of_mem_table (sh := .single) (by decide), fun dst s s1 ld hdst => ⟨?_, ?_⟩⟩
  · rw [← toNat_sub_one, u16_toNat, ← flags_resolve hdst, ← Flags.dec_eq]
    exact congrArg _ (runSingle_resolved effectDec hdst)
  · exact dec_overflow_iff (locRead s1 ld).isLt

/-- Settles O18: NEG writes all four flags, so the flags before it do not matter. -/
theorem negResult : Obligations.NegResult := by
  refine ⟨encodedAs_of_mem_table (sh := .single) (by decide), fun dst s s1 ld hdst => ⟨?_, ?_⟩⟩
  · rw [← toNat_zero_sub, u16_toNat, ← Flags.neg_eq s1.flags]
    exact congrArg _ (runSingle_resolved effectNeg hdst)
  · exact neg_overflow_iff (locRead s1 ld).isLt

end Sys2Proof.Machine
end

section
/-! HALT and the branches (44_halt_and_branches.md): the conditions on the flags, the target as a number, and the
step of a machine that has HALT alone in ROM. -/

namespace Sys2Proof.Machine

open Sys2Proof.Vocabulary

/-! ### Branch conditions -/

theorem Flags.notEqual_iff (f : Flags) : f.notEqual = true ↔ f.z = false := by rw [notEqual, Bool.not_eq_true']

theorem Flags.plus_iff (f : Flags) : f.plus = true ↔ f.n = false := by rw [plus, Bool.not_eq_true']

theorem Flags.overflowClear_iff (f : Flags) : f.overflowClear = true ↔ f.v = false := by
  rw [overflowClear, Bool.not_eq_true']

theorem Flags.carryClear_iff (f : Flags) : f.carryClear = true ↔ f.c = false := by rw [carryClear, Bool.not_eq_true']

/-- `N XOR V` is set exactly when the two flags differ. -/
theorem Flags.lessThan_iff (f : Flags) : f.lessThan = true ↔ f.n ≠ f.v := by rw [lessThan, Bool.xor_iff_ne]

theorem Flags.greaterOrEqual_iff (f : Flags) : f.greaterOrEqual = true ↔ f.n = f.v := by
  rw [← not_iff_not, Bool.not_eq_true, greaterOrEqual, Bool.not_eq_false']
  exact f.lessThan_iff

theorem Flags.lessOrEqual_iff (f : Flags) : f.lessOrEqual = true ↔ f.z = true ∨ f.n ≠ f.v := by
  rw [lessOrEqual, Bool.or_eq_true, Bool.xor_iff_ne]

theorem Flags.greaterThan_iff (f : Flags) : f.greaterThan = true ↔ f.z = false ∧ f.n = f.v := by
  rw [greaterThan, Bool.not_or, Bool.and_eq_true, Bool.not_eq_true']
  exact and_congr_right' f.greaterOrEqual_iff

theorem Flags.higher_iff (f : Flags) : f.higher = true ↔ f.c = false ∧ f.z = false := by
  rw [higher, Bool.and_eq_true, Bool.not_eq_true', Bool.not_eq_true']

theorem Flags.lowerOrSame_iff (f : Flags) : f.lowerOrSame = true ↔ f.c = true ∨ f.z = true := by
  rw [lowerOrSame, Bool.or_eq_true]

/-! ### Branches -/

/-- The words of a branch are those with its opcode in the upper byte (30_encoding.md R67). -/
theorem encodedAs_branch {opcode : Word} {m : Mnemonic} (hrow : ⟨0xFF00, opcode, .branch, m⟩ ∈ table) :
    EncodedAs 0xFF00 opcode m := encodedAs_of_mem_table hrow

theorem branch_target_eq_u16 (v off : Word) : v + 2 * off = u16 (v.toNat + 2 * off.toNat) := by
  apply BitVec.eq_of_toNat_eq
  rw [toNat_add_word, BitVec.toNat_mul, toNat_u16]
  exact Nat.add_mod_mod _ _ _

/-- A branch whose condition on the flags is `p` answers its target if `p` holds, and the same state if not (R122). -/
theorem next_branchIf {cond : Bool} {p : Prop} [Decidable p] (hp : cond = true ↔ p) (off : Word) (s : State) :
    (.next (branchIf cond off s) : Host.Outcome State Fault Refusal) =
      .next (if p then s.setPc (u16 (s.pc.toNat + 2 * off.toNat)) else s) := by
  rw [branchIf, branch_target_eq_u16]
  simp only [hp]

/-- Settles O20: the rows of the table, and each condition as a statement about the flags. -/
theorem lowerBranchResults : Obligations.LowerBranchResults := by
  refine ⟨encodedAs_branch (by decide), encodedAs_branch (by decide), encodedAs_branch (by decide),
    encodedAs_branch (by decide), encodedAs_branch (by decide), encodedAs_branch (by decide),
    encodedAs_branch (by decide), fun off s => ?_⟩
  exact ⟨next_branchIf (p := True) (iff_of_true rfl trivial) off s,
    next_branchIf s.flags.notEqual_iff off s,
    next_branchIf (cond := s.flags.equal) Iff.rfl off s,
    next_branchIf s.flags.greaterOrEqual_iff off s,
    next_branchIf s.flags.lessThan_iff off s,
    next_branchIf s.flags.greaterThan_iff off s,
    next_branchIf s.flags.lessOrEqual_iff off s⟩

/-- Settles O21: as `lowerBranchResults`, with the rows and conditions of the upper half. -/
theorem upperBranchResults : Obligations.UpperBranchResults := by
  refine ⟨encodedAs_branch (by decide), encodedAs_branch (by decide), encodedAs_branch (by decide),
    encodedAs_branch (by decide), encodedAs_branch (by decide), encodedAs_branch (by decide),
    encodedAs_branch (by decide), encodedAs_branch (by decide), fun off s => ?_⟩
  exact ⟨next_branchIf s.flags.plus_iff off s,
    next_branchIf (cond := s.flags.minus) Iff.rfl off s,
    next_branchIf s.flags.higher_iff off s,
    next_branchIf s.flags.lowerOrSame_iff off s,
    next_branchIf s.flags.overflowClear_iff off s,
    next_branchIf (cond := s.flags.overflowSet) Iff.rfl off s,
    next_branchIf s.flags.carryClear_iff off s,
    next_branchIf (cond := s.flags.carrySet) Iff.rfl off s⟩

/-! ### The parameters and the tick totals of one step -/

/-- Legal parameters leave ROM at least two bytes below 65536 (00_scope.md R15, R16). -/
theorem romBase_add_two_le {c : Config} (h : c.wf = true) : c.romBase + 2 ≤ 65536 := by
  simp only [Config.wf, Bool.and_eq_true, decide_eq_true_eq] at h
  have hsize : c.size = c.romBase + c.romSize := rfl
  omega

theorem stepCost_pos {c : Config} (h : c.wf = true) : 0 < stepCost c := by
  simp only [Config.wf, Bool.and_eq_true, decide_eq_true_eq] at h
  rw [stepCost]
  omega

/-- The entries of one step cost `S` of 70_reset_and_hazards.md R167. -/
theorem totalCost_stepEntries (c : Config) : totalCost (stepEntries c) = stepCost c := by
  simp only [totalCost, stepEntries, stepCost, List.map, List.sum_cons, List.sum_nil, Config.cost]
  omega

theorem naiveTicks_of_no_step {s : State} (h : s.hist = []) : naiveTicks s = 0 := by rw [naiveTicks, h]; rfl

theorem optimizedTicks_of_no_step {s : State} (h : s.hist = []) : optimizedTicks s = 0 := by rw [optimizedTicks, h]; rfl

theorem naiveTicks_of_one_step {s : State} {c : Config} (h : s.hist = stepEntries c) : naiveTicks s = stepCost c := by
  rw [naiveTicks, h, totalCost_stepEntries]

theorem optimizedTicks_of_one_step {s : State} {c : Config} (h : s.hist = stepEntries c) :
    optimizedTicks s = stepCost c := by
  have hlen : (stepEntries c).length = 5 := rfl
  simp [optimizedTicks, h, hlen, List.take_of_length_le, totalCost_stepEntries]

/-! ### HALT -/

theorem exec_halt (s : State) : exec .halt s = .next s := rfl

/-- What a step in the fetch window answers, from its instruction's next state (R92). -/
theorem step_eq_next {s u : State} {i : Instr} (hlo : s.cfg.romBase ≤ s.pc.toNat) (hhi : s.pc.toNat + 2 ≤ s.endAddr)
    (hd : decode (u16 (wordAt s s.pc.toNat)) = .instr i) (hx : exec i (s.setPc (s.pc + 2)) = .next u) :
    step s = .next (record (u16 (wordAt s s.pc.toNat)) i u) := by
  simp only [step, fetch_in_window hlo hhi, hd, hx, completing]

/-- HALT alone in ROM after a reset (70_reset_and_hazards.md R161). -/
def bootHalt (s : State) : State := setPcToRom (loadImage [0, 0] (hostReset s))

theorem pc_bootHalt (s : State) : (bootHalt s).pc = BitVec.ofNat 16 s.cfg.romBase := State.pc_setPc _ _

theorem endAddr_bootHalt (s : State) : (bootHalt s).endAddr = s.cfg.romBase + 2 := rfl

theorem wordAt_bootHalt {s : State} (hm : Memory.wf s.mem = true) : wordAt (bootHalt s) s.cfg.romBase = 0 := by
  have hreset : Memory.wf (hostReset s).mem = true := Memory.wf_clearRange hm _ _
  have hlo : some ((bootHalt s).mem.read s.cfg.romBase) = some 0 :=
    read_loadImage_inside (k := 0) hreset [0, 0] (by decide)
  have hhi : some ((bootHalt s).mem.read (s.cfg.romBase + 1)) = some 0 :=
    read_loadImage_inside (k := 1) hreset [0, 0] (by decide)
  rw [wordAt, Option.some.inj hlo, Option.some.inj hhi]
  rfl

/-- The state after the step of HALT: `pc` is past the word, and the step is recorded. -/
def afterBootHalt (s : State) : State := record 0 .halt ((bootHalt s).setPc (u16 (s.cfg.romBase + 2)))

theorem pc_afterBootHalt (s : State) : (afterBootHalt s).pc = u16 (s.cfg.romBase + 2) := State.pc_setPc _ _

theorem step_bootHalt {s : State} (hc : s.cfg.wf = true) (hm : Memory.wf s.mem = true) :
    step (bootHalt s) = .next (afterBootHalt s) := by
  have hrom := romBase_add_two_le hc
  have hpc : (bootHalt s).pc.toNat = s.cfg.romBase := by
    rw [pc_bootHalt, BitVec.toNat_ofNat]
    exact Nat.mod_eq_of_lt (by omega)
  have hword : wordAt (bootHalt s) (bootHalt s).pc.toNat = 0 := by rw [hpc, wordAt_bootHalt hm]
  have hnext : (bootHalt s).pc + 2 = u16 (s.cfg.romBase + 2) := by rw [add_two_eq_u16, hpc]
  have hhi : (bootHalt s).pc.toNat + 2 ≤ (bootHalt s).endAddr := by rw [hpc, endAddr_bootHalt]
  have hdecode : decode (u16 (wordAt (bootHalt s) (bootHalt s).pc.toNat)) = .instr .halt := by rw [hword]; decide
  have hstep := step_eq_next hpc.ge hhi hdecode (exec_halt _)
  rw [hword, hnext] at hstep
  exact hstep

/-- After HALT, where `END` is a 16-bit address, `pc` is `END`. -/
theorem step_afterBootHalt {s : State} (hend : s.cfg.romBase + 2 < 65536) :
    step (afterBootHalt s) = .fault .finished := by
  rw [step_finished_iff, pc_afterBootHalt, toNat_u16, Nat.mod_eq_of_lt hend]
  rfl

/-- Settles O19: `afterBootHalt` is the state after the step, and its history is that of one step. -/
theorem haltHasNoEffect : Obligations.HaltHasNoEffect := by
  refine ⟨encodedAs_of_mem_table (sh := .noOperand) (by decide), exec_halt, fun s hc hm => ?_⟩
  have hbefore : (bootHalt s).hist = [] := rfl
  have hafter : (afterBootHalt s).hist = stepEntries s.cfg := rfl
  refine ⟨afterBootHalt s, step_bootHalt hc hm, pc_afterBootHalt s, rfl, rfl, ?_, ?_, step_afterBootHalt⟩
  · exact (naiveTicks_of_no_step hbefore).trans_lt ((stepCost_pos hc).trans_eq (naiveTicks_of_one_step hafter).symm)
  · exact (optimizedTicks_of_no_step hbefore).trans_lt
      ((stepCost_pos hc).trans_eq (optimizedTicks_of_one_step hafter).symm)

end Sys2Proof.Machine
end

section
/-! The two fatal outcomes of a step (60_exceptions.md R140, R141), each with exactly what raises it. -/

namespace Sys2Proof.Machine

open Sys2Proof.Vocabulary

theorem step_addressOutOfRange_iff (s : State) :
    step s = .fault .addressOutOfRange ↔
      s.pc.toNat ≠ s.endAddr ∧ ¬ (s.cfg.romBase ≤ s.pc.toNat ∧ s.pc.toNat + 2 ≤ s.endAddr) := by
  refine ⟨fun h => ?_, fun ⟨hne, hout⟩ => step_addressOutOfRange hne hout⟩
  rcases step_cases s with ⟨-, hst⟩ | ⟨hne, hout, -⟩ | ⟨-, -, -, hst⟩ | ⟨-, -, i, u, -, -, hst⟩
  · rw [hst] at h; cases h
  · exact ⟨hne, hout⟩
  · rw [hst] at h; cases h
  · rw [hst] at h; cases h

/-- The fetch window as the spec writes it, `[ROM_BASE, END - 2]` over the integers: `END - 2` may be negative. -/
theorem fetchWindow_iff (s : State) :
    s.cfg.romBase ≤ s.pc.toNat ∧ (s.pc.toNat : Int) ≤ (s.cfg.romBase + s.romLen : Nat) - 2 ↔
      s.cfg.romBase ≤ s.pc.toNat ∧ s.pc.toNat + 2 ≤ s.endAddr := by
  rw [endAddr_eq]
  omega

/-- Settles O41: of the four ways a step can end, only the failed fetch gives this outcome, and it carries no state. -/
theorem fetchOutsideWindowIsFatal : Obligations.FetchOutsideWindowIsFatal := by
  refine fun s => ⟨?_, hostStep_addressOutOfRange⟩
  rw [fetchWindow_iff]
  exact step_addressOutOfRange_iff s

/-- The word at `pc` is fetched and decodes to nothing; then the state is the one before, with `pc` past the word. -/
theorem step_invalidOpcode_iff (s t : State) :
    step s = .fault (.invalidOpcode t) ↔
      s.cfg.romBase ≤ s.pc.toNat ∧ s.pc.toNat + 2 ≤ s.endAddr ∧
        decode (u16 (wordAt s s.pc.toNat)) = .rejected .invalidOpcode ∧ t = s.setPc (s.pc + 2) := by
  rcases step_cases s with ⟨hend, hst⟩ | ⟨-, hout, hst⟩ | ⟨hlo, hhi, hrej, hst⟩ | ⟨-, -, i, u, hd, -, hst⟩ <;> rw [hst]
  · exact iff_of_false (by simp) fun ⟨_, hhi, _⟩ => by omega
  · exact iff_of_false (by simp) fun ⟨hlo, hhi, _⟩ => hout ⟨hlo, hhi⟩
  · simp [hlo, hhi, hrej, eq_comm]
  · exact iff_of_false (by simp) fun ⟨_, _, hrej, _⟩ => by rw [hd] at hrej; cases hrej

/-- Settles O42: the outcome carries the state with `pc` past the word, and the host is left in it. -/
theorem invalidOpcodeMovesPcOnly : Obligations.InvalidOpcodeMovesPcOnly := by
  refine fun s t => ⟨?_, hostStep_invalidOpcode⟩
  rw [← add_two_eq_u16, ← endAddr_eq]
  exact step_invalidOpcode_iff s t

end Sys2Proof.Machine
end

section
/-! Reset and power-on (70_reset_and_hazards.md R157, R159): the registers and bytes of each state, and the step right
after a reset. -/

namespace Sys2Proof.Machine

/-- `ResetRegisters()` leaves zero in every register, and power-on starts from the same register file. -/
theorem reg_of_regs_zero {s : State} (h : s.regs = Vector.replicate 8 0) (k : RegNum) : s.reg k = 0 := by
  rw [State.reg, h, Vector.getElem_replicate]

/-! ### `Reset` -/

@[simp] theorem hostReset_cfg (s : State) : (hostReset s).cfg = s.cfg := rfl
@[simp] theorem hostReset_endAddr (s : State) : (hostReset s).endAddr = s.endAddr := rfl

theorem reg_hostReset (s : State) (k : RegNum) : (hostReset s).reg k = 0 := reg_of_regs_zero rfl k

@[simp] theorem pc_hostReset (s : State) : (hostReset s).pc.toNat = 0 := congrArg BitVec.toNat (reg_hostReset s pcNum)

theorem read_hostReset_video {s : State} {b : Nat} (hlo : s.cfg.videoBase ≤ b) (hhi : b < s.cfg.romBase) :
    (hostReset s).mem.read b = 0 :=
  (Memory.read_clearRange _ _ _ _).trans (if_pos ⟨hlo, hhi⟩)

theorem read_hostReset_other {s : State} {b : Nat} (h : b < s.cfg.videoBase ∨ s.cfg.romBase ≤ b) :
    (hostReset s).mem.read b = s.mem.read b :=
  (Memory.read_clearRange _ _ _ _).trans (if_neg (by omega))

/-- After `Reset` `pc` is 0, so the step finds it at `END` exactly in a machine whose ROM starts at 0 and is empty. -/
theorem step_hostReset_finished {s : State} (hbase : s.cfg.romBase = 0) (hlen : s.romLen = 0) :
    step (hostReset s) = .fault .finished := by
  rw [step_finished_iff, pc_hostReset, hostReset_endAddr, endAddr_eq, hbase, hlen]

/-- After `Reset` `pc` is 0: below the fetch window when `ROM_BASE > 0`, and not in it when `rom_len = 1`, since one byte
holds no word. -/
theorem step_hostReset_addressOutOfRange {s : State} (h : 0 < s.cfg.romBase ∨ s.romLen = 1) :
    step (hostReset s) = .fault .addressOutOfRange := by
  rw [step_addressOutOfRange_iff, pc_hostReset, hostReset_endAddr, hostReset_cfg, endAddr_eq]
  omega

/-- Settles O51: the state after `Reset` is `hostReset`, and the step right after it is decided by `pc = 0` against
`ROM_BASE` and `END`. -/
theorem resetTransaction : Obligations.ResetTransaction := by
  intro s
  exact ⟨hostReset s, rfl, reg_hostReset s, rfl, fun _ => read_hostReset_video, fun _ => read_hostReset_other,
    rfl, rfl, rfl, rfl, rfl, fun hbase => step_hostReset_addressOutOfRange (.inl hbase), step_hostReset_finished,
    fun _ hlen => step_hostReset_addressOutOfRange (.inr hlen)⟩

/-! ### Power-on -/

/-- The bytes at power-on: those of INITIAL_MEMORY with video memory cleared, and none outside the address space. -/
theorem read_powerOn (c : Config) (init : Memory) (b : Nat) :
    (powerOn c init).mem.read b =
      if b < c.size then (init.clearRange c.videoBase c.romBase).read b else unlistedByte := by
  rw [powerOn, Memory.read_filter _ fun a => decide (a < c.size)]
  simp only [decide_eq_true_eq]

theorem read_powerOn_video {c : Config} {b : Nat} (init : Memory) (hlo : c.videoBase ≤ b) (hhi : b < c.romBase) :
    (powerOn c init).mem.read b = 0 := by
  have hclear : (init.clearRange c.videoBase c.romBase).read b = unlistedByte :=
    (Memory.read_clearRange _ _ _ _).trans (if_pos ⟨hlo, hhi⟩)
  rw [read_powerOn, hclear, ite_self]
  rfl

theorem read_powerOn_other {c : Config} {b : Nat} (init : Memory) (hsize : b < c.size)
    (h : b < c.videoBase ∨ c.romBase ≤ b) : (powerOn c init).mem.read b = init.read b := by
  rw [read_powerOn, if_pos hsize, Memory.read_clearRange, if_neg (by omega)]

/-- Power-on meets the invariant: both filters keep the canonical form, the second keeps memory inside the address
space, and nothing has been executed. -/
theorem inv_powerOn {c : Config} {init : Memory} (hc : c.wf = true) (hm : Memory.wf init = true) :
    (powerOn c init).Inv where
  cfg_wf := hc
  mem_wf := Memory.wf_filter (Memory.wf_clearRange hm _ _) _
  mem_inside := fun _ hcell => of_decide_eq_true (List.mem_filter.1 hcell).2
  romLen_le := Nat.zero_le _
  hist_eq := rfl
  traces_agree := rfl
  itrace_faithful := fun _ he => absurd he List.not_mem_nil

/-- Settles O52: the invariant, and the bytes of each region, hold of `powerOn` by its two filters. -/
theorem powerOnState : Obligations.PowerOnState := by
  intro c init hc hm
  exact ⟨inv_powerOn hc hm, rfl, reg_of_regs_zero rfl, rfl, rfl, rfl, rfl, rfl, fun _ => read_powerOn_video init,
    fun _ => read_powerOn_other init⟩

end Sys2Proof.Machine
end

section
/-! Encoding and decoding (30_encoding.md R71, R74, R80, R81): a row accepts a range of words, the words from its match
value up that differ from it in the fields only. Both round trips and the illegal words follow. -/

namespace Sys2Proof

open Sys2Proof.Vocabulary

/-- The number of low bits of a word that hold the fields of a shape (R63 to R67). -/
def Shape.fieldBits : Shape → Nat
  | .noOperand => 0
  | .single => 6
  | .double => 12
  | .doubleReg => 9
  | .branch => 8

/-- The shape whose fields these are. -/
def Fields.shape : Fields → Shape
  | .noOperand => .noOperand
  | .single _ => .single
  | .double _ _ => .double
  | .doubleReg _ _ => .doubleReg
  | .branch _ => .branch

@[simp] theorem shape_extract (sh : Shape) (w : Word) : (extract sh w).shape = sh := by cases sh <;> rfl

@[simp] theorem shape_fields (i : Instr) : i.fields.shape = i.mnemonic.shape := by cases i <;> rfl

/-! ### The words of a row as a range -/

/-- The mask of a row keeps the bits above the fields. -/
theorem table_mask : ∀ d ∈ table, d.mask = BitVec.allOnes 16 <<< d.mnemonic.shape.fieldBits := by decide

/-- A match value has no bit in the fields, and its range stays inside the word. -/
theorem base_fieldBits (m : Mnemonic) :
    m.base % 2 ^ m.shape.fieldBits = 0 ∧ m.base + 2 ^ m.shape.fieldBits ≤ 65536 := by cases m <;> decide

theorem toNat_and_allOnes_shiftLeft (w : Word) (k : Nat) :
    (w &&& BitVec.allOnes 16 <<< k).toNat = w.toNat / 2 ^ k * 2 ^ k := by
  have hle : w.toNat / 2 ^ k * 2 ^ k < 2 ^ 16 := (Nat.div_mul_le_self _ _).trans_lt w.isLt
  rw [← BitVec.shiftLeft_ushiftRight, BitVec.toNat_shiftLeft, BitVec.toNat_ushiftRight, Nat.shiftLeft_eq,
    Nat.shiftRight_eq_div_pow, Nat.mod_eq_of_lt hle]

/-- A number rounds down to a multiple of `b` exactly when it is in the block of `b` that starts there. -/
theorem div_mul_eq_iff_block {n a b : Nat} (hb : 0 < b) (ha : a % b = 0) : n / b * b = a ↔ a ≤ n ∧ n < a + b := by
  obtain ⟨q, rfl⟩ := Nat.dvd_of_mod_eq_zero ha
  rw [mul_comm b q, Nat.mul_left_inj hb.ne', Nat.div_eq_iff hb]
  have hnext : q * b + b = q.succ * b := (Nat.succ_mul q b).symm
  omega

/-- A row of the table accepts exactly the words in the range of its match value. -/
theorem accepts_iff_range {d : Descriptor} (hd : d ∈ table) (w : Word) :
    w &&& d.mask = d.opcode ↔
      d.mnemonic.base ≤ w.toNat ∧ w.toNat < d.mnemonic.base + 2 ^ d.mnemonic.shape.fieldBits := by
  obtain ⟨haligned, hfits⟩ := base_fieldBits d.mnemonic
  have hpos : 0 < 2 ^ d.mnemonic.shape.fieldBits := Nat.two_pow_pos _
  have hbase : (BitVec.ofNat 16 d.mnemonic.base).toNat = d.mnemonic.base :=
    Laws.EncodingFits.toNat_of_lt (by omega)
  rw [← div_mul_eq_iff_block hpos haligned, ← BitVec.toNat_inj, table_mask d hd, table_base d hd,
    toNat_and_allOnes_shiftLeft, hbase]

theorem exists_row (m : Mnemonic) : ∃ d ∈ table, d.mnemonic = m := by cases m <;> decide

/-- The words of a mnemonic's range decode to its instruction. -/
theorem decode_of_range {m : Mnemonic} {w : Word} (hlo : m.base ≤ w.toNat)
    (hhi : w.toNat < m.base + 2 ^ m.shape.fieldBits) : decode w = .instr (m.instr w) := by
  obtain ⟨d, hd, rfl⟩ := exists_row m
  exact decode_instr.2 ⟨d, matchRow_eq_some.2 ⟨hd, (accepts_iff_range hd w).2 ⟨hlo, hhi⟩⟩, rfl⟩

/-! ### Fields and their bits -/

theorem bits_of_isOperand {o : Operand} {m r : Nat} (hm : m < 8) (h : IsOperand o m r) : o.bits = 8 * m + r := by
  obtain ⟨hmode, hreg⟩ := h
  rw [modes_getElem? m hm, Option.some.injEq] at hmode
  rw [Operand.bits, ← hmode, mode_number_ofField hm, hreg]

theorem bits_dstField (w : Word) : (dstField w).bits = w.toNat % 64 := by
  rw [bits_of_isOperand (Nat.mod_lt _ (by decide)) (isOperand_dstField w)]
  omega

theorem bits_srcField (w : Word) : (srcField w).bits = w.toNat / 64 % 64 := by
  rw [bits_of_isOperand (Nat.mod_lt _ (by decide)) (isOperand_srcField w)]
  omega

theorem toNat_offField (w : Word) : (offField w).toNat = w.toNat % 256 := by
  rw [offField_eq, Machine.toNat_u16]
  omega

/-- The fields a shape extracts are the low bits of the word, all of them. -/
theorem bits_extract (sh : Shape) (w : Word) : (extract sh w).bits = w.toNat % 2 ^ sh.fieldBits := by
  cases sh with
  | noOperand => exact (Nat.mod_one _).symm
  | single => exact bits_dstField w
  | double =>
    have hpow : 2 ^ Shape.double.fieldBits = 4096 := rfl
    rw [extract, Fields.bits, bits_srcField, bits_dstField, hpow]
    omega
  | doubleReg =>
    have hpow : 2 ^ Shape.doubleReg.fieldBits = 512 := rfl
    rw [extract, Fields.bits, regField_val, bits_dstField, hpow]
    omega
  | branch => exact toNat_offField w

theorem wellFormed_extract (sh : Shape) (w : Word) : (extract sh w).wellFormed = true := by
  cases sh with
  | branch =>
    rw [extract, Fields.wellFormed, decide_eq_true_iff, toNat_offField]
    exact Nat.mod_lt _ (by decide)
  | noOperand | single | double | doubleReg => rfl

/-- The bits of an operand determine it. -/
theorem operand_bits_inj {o p : Operand} (h : o.bits = p.bits) : o = p := by
  have ho := o.reg.isLt
  have hp := p.reg.isLt
  simp only [Operand.bits] at h
  have hmode : o.mode.number = p.mode.number := by omega
  have hreg : o.reg = p.reg := Fin.ext (by omega)
  obtain ⟨m, r⟩ := o
  obtain ⟨n, q⟩ := p
  rw [Operand.mk.injEq]
  exact ⟨by rw [← mode_ofField_number m, hmode, mode_ofField_number], hreg⟩

/-- The bits of the fields of one shape determine them. -/
theorem fields_bits_inj {f g : Fields} (hshape : f.shape = g.shape) (h : f.bits = g.bits) : f = g := by
  cases f <;> cases g <;> cases hshape <;> simp only [Fields.bits] at h
  case noOperand => rfl
  case single dst dst' => rw [operand_bits_inj h]
  case double src dst src' dst' =>
    have hd := operand_bits_lt dst
    have hd' := operand_bits_lt dst'
    rw [operand_bits_inj (show src.bits = src'.bits by omega), operand_bits_inj (show dst.bits = dst'.bits by omega)]
  case doubleReg reg dst reg' dst' =>
    have hd := operand_bits_lt dst
    have hd' := operand_bits_lt dst'
    rw [Fin.ext (show reg.val = reg'.val by omega), operand_bits_inj (show dst.bits = dst'.bits by omega)]
  case branch off off' => rw [BitVec.eq_of_toNat_eq h]

/-- Well-formed fields fit in the bits of their shape. -/
theorem fields_bits_lt {f : Fields} (h : f.wellFormed = true) : f.bits < 2 ^ f.shape.fieldBits := by
  cases f with
  | noOperand => exact Nat.one_pos
  | single dst => exact operand_bits_lt dst
  | double src dst =>
    have hs := operand_bits_lt src
    have hd := operand_bits_lt dst
    show 64 * src.bits + dst.bits < 4096
    omega
  | doubleReg reg dst =>
    have hr := reg.isLt
    have hd := operand_bits_lt dst
    show 64 * reg.val + dst.bits < 512
    omega
  | branch off => exact of_decide_eq_true h

/-! ### The round trips -/

/-- An instruction's mnemonic makes it again from any word that holds its fields. -/
theorem instr_of_extract {i : Instr} {w : Word} (h : extract i.mnemonic.shape w = i.fields) :
    i.mnemonic.instr w = i := by
  cases i <;> cases h <;> rfl

theorem toNat_encode {i : Instr} (h : i.wellFormed = true) : (encode i).toNat = i.mnemonic.base + i.fields.bits := by
  have hbits : i.fields.bits < 2 ^ i.mnemonic.shape.fieldBits := by simpa using fields_bits_lt h
  have hfits := (base_fieldBits i.mnemonic).2
  exact Laws.EncodingFits.toNat_of_lt (by omega)

/-- Settles O2: the encoding is in the range of its mnemonic's row, and the bits above its match value are the fields. -/
theorem decodeOfEncodeIsTheInstruction : Obligations.DecodeOfEncodeIsTheInstruction := by
  intro i hwf
  have hword := toNat_encode hwf
  have hbits : i.fields.bits < 2 ^ i.mnemonic.shape.fieldBits := by simpa using fields_bits_lt hwf
  have hmod : (encode i).toNat % 2 ^ i.mnemonic.shape.fieldBits = i.fields.bits := by
    rw [hword, Nat.add_mod, (base_fieldBits i.mnemonic).1, Nat.zero_add, Nat.mod_mod, Nat.mod_eq_of_lt hbits]
  have hfields : extract i.mnemonic.shape (encode i) = i.fields :=
    fields_bits_inj (by simp) ((bits_extract _ _).trans hmod)
  rw [decode_of_range (m := i.mnemonic) (by omega) (by omega), instr_of_extract hfields]

/-- Settles O3: a word in the range of a row is the row's match value plus the bits of its fields. -/
theorem encodeOfDecodeIsTheWord : Obligations.EncodeOfDecodeIsTheWord := by
  intro w i hdecode
  obtain ⟨d, hrow, rfl⟩ := decode_instr.1 hdecode
  obtain ⟨hd, haccepts⟩ := matchRow_some hrow
  have hwf : (d.mnemonic.instr w).wellFormed = true := by
    rw [Instr.wellFormed, instr_fields]
    exact wellFormed_extract _ w
  refine ⟨hwf, BitVec.eq_of_toNat_eq ?_⟩
  have hrange := (accepts_iff_range hd w).1 haccepts
  have hblock := (div_mul_eq_iff_block (Nat.two_pow_pos _) (base_fieldBits d.mnemonic).1).2 hrange
  rw [toNat_encode hwf, instr_mnemonic, instr_fields, bits_extract]
  conv_lhs => rw [← hblock]
  exact Nat.div_add_mod' _ _

/-- Settles O5: the word is in the range of no row, and the ranges of the 28 rows make up the eight. -/
theorem illegalWordsAreTheUnmatchedOnes : Obligations.IllegalWordsAreTheUnmatchedOnes := by
  intro w
  have hranges : (∀ d ∈ table, w &&& d.mask ≠ d.opcode) ↔
      ∀ d ∈ table, ¬ (d.mnemonic.base ≤ w.toNat ∧ w.toNat < d.mnemonic.base + 2 ^ d.mnemonic.shape.fieldBits) :=
    forall₂_congr fun d hd => not_congr (accepts_iff_range hd w)
  rw [decode_rejected, and_iff_left rfl, matchRow_none, hranges]
  simp only [table, List.cons_append, List.nil_append, List.forall_mem_cons, List.not_mem_nil, false_imp_iff,
    implies_true, and_true, Mnemonic.base, Mnemonic.shape, Shape.fieldBits, Nat.reducePow]
  omega

/-- Settles O1: each word is looked up in the table. -/
theorem sampleWordsDecode : Obligations.SampleWordsDecode := by
  refine ⟨?_, ?_, ?_, ?_, ?_, ?_, ?_, ?_⟩ <;> decide

end Sys2Proof
end

section
/-! The invariant (10_state.md, `State.Inv`): kept by what leaves accounting alone, by the record of a step, by every
step and by every transaction; and the tick totals that its history fixes (70_reset_and_hazards.md R167 to R169). -/

namespace Sys2Proof.Machine

open Sys2Proof.Vocabulary

/-! ### The history of whole steps -/

theorem histOfSteps_zero (c : Config) : histOfSteps c 0 = [] := rfl

theorem histOfSteps_succ (c : Config) (k : Nat) : histOfSteps c (k + 1) = stepEntries c ++ histOfSteps c k := by
  rw [histOfSteps, List.replicate_succ, List.flatten_cons, histOfSteps]

theorem histOfSteps_succ' (c : Config) (k : Nat) : histOfSteps c (k + 1) = histOfSteps c k ++ stepEntries c := by
  rw [histOfSteps, List.replicate_succ', List.flatten_append, List.flatten_singleton, histOfSteps]

/-! ### Steps -/

/-- What an instruction may do to a state keeps the invariant. -/
theorem Tame.inv {s t : State} (h : Tame s t) (hs : s.Inv) : t.Inv where
  cfg_wf := by rw [h.cfg]; exact hs.cfg_wf
  mem_wf := h.wf hs.mem_wf
  mem_inside := by rw [h.cfg]; exact h.inside hs.mem_inside
  romLen_le := by rw [h.cfg, h.romLen]; exact hs.romLen_le
  hist_eq := by rw [h.cfg, h.hist, h.wtrace]; exact hs.hist_eq
  traces_agree := by rw [h.itrace, h.wtrace]; exact hs.traces_agree
  itrace_faithful := by rw [h.itrace]; exact hs.itrace_faithful

theorem OnlyRegs.inv {s t : State} (h : OnlyRegs s t) (hs : s.Inv) : t.Inv := h.tame.inv hs

/-- Recording a decoded word adds one entry to each trace and the entries of one step to the history. -/
theorem inv_record {w : Word} {i : Instr} {s : State} (hd : decode w = .instr i) (hs : s.Inv) : (record w i s).Inv where
  cfg_wf := hs.cfg_wf
  mem_wf := hs.mem_wf
  mem_inside := hs.mem_inside
  romLen_le := hs.romLen_le
  hist_eq := by
    rw [record_hist, record_wtrace, record_cfg, List.length_append, List.length_singleton, histOfSteps_succ', hs.hist_eq]
  traces_agree := by rw [record_itrace, record_wtrace, List.map_append, hs.traces_agree]; rfl
  itrace_faithful := by
    rw [record_itrace]
    intro e he
    rcases List.mem_append.1 he with hold | hnew
    · exact hs.itrace_faithful e hold
    · rw [List.mem_singleton.1 hnew]
      exact ⟨i, hd, rfl, rfl⟩

theorem inv_step_next {s t : State} (hs : s.Inv) (h : step s = .next t) : t.Inv := by
  obtain ⟨i, u, -, -, hd, hexec, rfl⟩ := step_next_inversion h
  exact inv_record hd ((exec_tame hexec).inv ((onlyRegs_advancePc s).inv hs))

theorem inv_step_invalidOpcode {s t : State} (hs : s.Inv) (h : step s = .fault (.invalidOpcode t)) : t.Inv := by
  obtain ⟨-, -, -, rfl⟩ := (step_invalidOpcode_iff s t).1 h
  exact (onlyRegs_setReg s _ _).inv hs

/-- Settles O46: the instruction is tame and the record adds whole entries; an illegal word moves `pc` only. -/
theorem everyStepKeepsTheInvariant : Obligations.EveryStepKeepsTheInvariant := fun _ hs =>
  ⟨fun _ => inv_step_next hs, fun _ => inv_step_invalidOpcode hs⟩

/-- Settles O47: the reset state has executed nothing and lists no byte. -/
theorem resetStateMeetsTheInvariant : Obligations.ResetStateMeetsTheInvariant where
  cfg_wf := by decide
  mem_wf := rfl
  mem_inside := fun _ h => absurd h List.not_mem_nil
  romLen_le := Nat.zero_le _
  hist_eq := rfl
  traces_agree := rfl
  itrace_faithful := fun _ h => absurd h List.not_mem_nil

/-! ### Transactions -/

/-- `Reset` clears the history and both traces together. -/
theorem inv_hostReset {s : State} (hs : s.Inv) : (hostReset s).Inv where
  cfg_wf := hs.cfg_wf
  mem_wf := Memory.wf_clearRange hs.mem_wf _ _
  mem_inside := Memory.below_clearRange hs.mem_inside
  romLen_le := hs.romLen_le
  hist_eq := rfl
  traces_agree := rfl
  itrace_faithful := fun _ h => absurd h List.not_mem_nil

/-- An image that fits ROM stays inside the address space. -/
theorem inv_loadImage {s : State} {image : List Byte} (hs : s.Inv) (hrom : image.length ≤ s.cfg.romSize) :
    (loadImage image s).Inv where
  cfg_wf := hs.cfg_wf
  mem_wf := Memory.wf_writeBytes hs.mem_wf _ _
  mem_inside := Memory.below_writeBytes hs.mem_inside (Nat.add_le_add_left hrom _)
  romLen_le := hrom
  hist_eq := hs.hist_eq
  traces_agree := hs.traces_agree
  itrace_faithful := hs.itrace_faithful

/-- A `Load` that is answered changed nothing, or loaded the first `len` bytes, which fit ROM. -/
theorem hostLoad_answered {bytes : List Byte} {len : Nat} {s t : State} {a : Answer}
    (h : hostLoad bytes len s = .answered a t) :
    (a = .loadError ∧ t = s) ∨
    (a = .done ∧ len ≤ s.cfg.romSize ∧ len ≤ bytes.length ∧ t = loadImage (bytes.take len) s) := by
  unfold hostLoad at h
  split_ifs at h with hrom hlen
  · cases h; exact .inl ⟨rfl, rfl⟩
  · cases h; exact .inr ⟨rfl, Nat.not_lt.1 hrom, Nat.not_lt.1 hlen, rfl⟩

theorem inv_hostLoad {bytes : List Byte} {len : Nat} {s t : State} {a : Answer} (hs : s.Inv)
    (h : hostLoad bytes len s = .answered a t) : t.Inv := by
  rcases hostLoad_answered h with ⟨-, rfl⟩ | ⟨-, hrom, -, rfl⟩
  · exact hs
  · exact inv_loadImage hs ((List.length_take_le _ _).trans hrom)

/-- A step as the host sees it leaves the next state, the one an illegal word leaves, or the same state. -/
theorem inv_hostStep {s t : State} {a : Answer} (hs : s.Inv) (h : hostStep s = .answered a t) : t.Inv := by
  rcases step_cases s with ⟨-, hst⟩ | ⟨-, -, hst⟩ | ⟨-, -, -, hst⟩ | ⟨-, -, i, u, -, -, hst⟩
  · rw [hostStep_finished hst] at h; cases h; exact hs
  · rw [hostStep_addressOutOfRange hst] at h; cases h; exact hs
  · rw [hostStep_invalidOpcode hst] at h; cases h; exact inv_step_invalidOpcode hs hst
  · rw [hostStep_continuing hst] at h; cases h; exact inv_step_next hs hst

theorem hostSetReg_answered {i : Nat} {v : Word} {s t : State} {a : Answer} (h : hostSetReg i v s = .answered a t) :
    OnlyRegs s t := by
  unfold hostSetReg at h
  split at h <;> cases h
  exact onlyRegs_setReg s _ v

theorem setFlagNamed_some {f : Char} {b : Bool} {s t : State} (h : setFlagNamed f b s = some t) :
    ∃ fl, t = s.setFlags fl := by
  unfold setFlagNamed at h
  split_ifs at h <;> exact ⟨_, (Option.some.inj h).symm⟩

theorem hostSetFlag_answered {f : Char} {b : Bool} {s t : State} {a : Answer} (h : hostSetFlag f b s = .answered a t) :
    ∃ fl, t = s.setFlags fl := by
  unfold hostSetFlag at h
  split at h <;> cases h
  next hset => exact setFlagNamed_some hset

theorem hostReadReg_answered {i : Nat} {s t : State} {a : Answer} (h : hostReadReg i s = .answered a t) : t = s := by
  unfold hostReadReg at h
  split at h <;> cases h
  rfl

theorem hostReadFlag_answered {f : Char} {s t : State} {a : Answer} (h : hostReadFlag f s = .answered a t) :
    t = s := by
  unfold hostReadFlag at h
  split at h <;> cases h
  rfl

/-- Settles O48: `Load`, `Step` and `Reset` each keep it by a lemma of their own, `SetReg` and `SetFlag` are tame, and the
observers answer the same state. -/
theorem everyTransactionKeepsTheInvariant : Obligations.EveryTransactionKeepsTheInvariant := by
  intro x a s t hs h
  cases x with
  | load bytes len => exact inv_hostLoad hs h
  | step => exact inv_hostStep hs h
  | reset => cases h; exact inv_hostReset hs
  | setReg i v => exact (hostSetReg_answered h).inv hs
  | setFlag f b =>
    obtain ⟨fl, rfl⟩ := hostSetFlag_answered h
    exact (tame_setFlags s fl).inv hs
  | readReg i => rw [hostReadReg_answered h]; exact hs
  | readFlag f => rw [hostReadFlag_answered h]; exact hs
  | videoSnapshot | romSnapshot | trace | wordTrace | naiveTicks | optimizedTicks => cases h; exact hs

/-! ### Tick totals -/

theorem length_histOfSteps (c : Config) (k : Nat) : (histOfSteps c k).length = 5 * k := by
  induction k with
  | zero => rfl
  | succ k ih =>
    rw [histOfSteps_succ, List.length_append, ih]
    exact (Nat.mul_succ 5 k).symm ▸ Nat.add_comm _ _

theorem totalCost_append (g h : List PipelineEntry) : totalCost (g ++ h) = totalCost g + totalCost h := by
  rw [totalCost, List.map_append, List.sum_append, totalCost, totalCost]

theorem totalCost_histOfSteps (c : Config) (k : Nat) : totalCost (histOfSteps c k) = k * stepCost c := by
  induction k with
  | zero => exact (Nat.zero_mul _).symm
  | succ k ih => rw [histOfSteps_succ', totalCost_append, ih, totalCost_stepEntries, Nat.succ_mul]

theorem maxCost_append (g h : List PipelineEntry) : maxCost (g ++ h) = max (maxCost g) (maxCost h) := by
  induction g with
  | nil => exact (Nat.zero_max _).symm
  | cons e g ih => rw [List.cons_append, maxCost, maxCost, ih, Nat.max_assoc]

theorem maxCost_stepEntries (c : Config) : maxCost (stepEntries c) = greatestCost c := by
  simp only [stepEntries, List.map, maxCost, Config.cost, greatestCost]
  omega

/-- Every step has the same costs, so the greatest cost of a run is that of its first step. -/
theorem maxCost_histOfSteps (c : Config) (k : Nat) : maxCost (histOfSteps c (k + 1)) = greatestCost c := by
  induction k with
  | zero => rw [histOfSteps_succ, histOfSteps_zero, List.append_nil, maxCost_stepEntries]
  | succ k ih => rw [histOfSteps_succ, maxCost_append, ih, maxCost_stepEntries, Nat.max_self]

/-- With every cost at least 1, one stage costs less than all five. -/
theorem greatestCost_lt_stepCost {c : Config} (h : c.wf = true) : greatestCost c < stepCost c := by
  simp only [Config.wf, Bool.and_eq_true, decide_eq_true_eq] at h
  rw [greatestCost, stepCost]
  omega

theorem optimizedTicks_of_steps {s : State} {c : Config} {k : Nat} (h : s.hist = histOfSteps c (k + 1)) :
    optimizedTicks s = stepCost c + k * greatestCost c := by
  have hcount : 5 * (k + 1) / 5 = k + 1 := Nat.mul_div_cancel_left _ (by decide)
  have hfirst : (histOfSteps c (k + 1)).take 5 = stepEntries c := by
    rw [histOfSteps_succ]
    exact List.take_left (l₁ := stepEntries c)
  simp only [optimizedTicks, h, length_histOfSteps, hcount, if_neg (Nat.succ_ne_zero k), hfirst, totalCost_stepEntries,
    maxCost_histOfSteps, Nat.add_sub_cancel]

/-- Settles O50: the invariant makes the history that of as many steps as there are traced words. -/
theorem tickTotalsAfterKSteps : Obligations.TickTotalsAfterKSteps := by
  intro s hs
  have hhist := hs.hist_eq
  have hnaive : naiveTicks s = s.wtrace.length * stepCost s.cfg := by rw [naiveTicks, hhist, totalCost_histOfSteps]
  refine ⟨hnaive, ?_⟩
  rw [hnaive]
  cases hk : s.wtrace.length with
  | zero =>
    rw [hk, histOfSteps_zero] at hhist
    exact ⟨fun _ => optimizedTicks_of_no_step hhist, nofun, nofun, nofun⟩
  | succ k =>
    rw [hk] at hhist
    rw [optimizedTicks_of_steps hhist, Nat.add_sub_cancel, Nat.succ_mul, Nat.add_comm (k * stepCost s.cfg)]
    refine ⟨nofun, fun _ => rfl, fun hone => ?_, fun hmore => ?_⟩
    · rw [Nat.succ.inj hone, Nat.zero_mul, Nat.zero_mul]
    · have hpos : 0 < k := Nat.lt_of_succ_lt_succ hmore
      exact Nat.add_lt_add_left (Nat.mul_lt_mul_of_pos_left (greatestCost_lt_stepCost hs.cfg_wf) hpos) _

end Sys2Proof.Machine
end

section
/-! Accounting (70_reset_and_hazards.md R165): stage costs, history and traces are put into a state beside its
architecture, and every operation of a step commutes with that. -/

namespace Sys2Proof.Machine

open Sys2Proof.Vocabulary

/-- What a state holds for accounting alone. -/
structure Accounting where
  costFetch : Nat
  costDecode : Nat
  costExecute : Nat
  costMemAccess : Nat
  hist : List PipelineEntry
  itrace : List TraceEntry
  wtrace : List Word

/-- The accounting of a state. -/
def State.accounting (s : State) : Accounting :=
  ⟨s.cfg.costFetch, s.cfg.costDecode, s.cfg.costExecute, s.cfg.costMemAccess, s.hist, s.itrace, s.wtrace⟩

/-- The state with other accounting. -/
def State.account (s : State) (acc : Accounting) : State :=
  { s with
    cfg := { s.cfg with
      costFetch := acc.costFetch
      costDecode := acc.costDecode
      costExecute := acc.costExecute
      costMemAccess := acc.costMemAccess }
    hist := acc.hist
    itrace := acc.itrace
    wtrace := acc.wtrace }

/-- Two states of one architecture differ in their accounting only. -/
theorem sameArchitecture_iff {s t : State} : SameArchitecture s t ↔ t = s.account t.accounting := by
  refine ⟨fun h => ?_, fun h => by rw [h]; constructor <;> rfl⟩
  obtain ⟨hregs, hflags, hmem, hrom, hram, hvideo, hromSize, hwrite, hindex⟩ := h
  simp only [State.account, State.accounting, hregs, hflags, hmem, hrom, hram, hvideo, hromSize, hwrite, hindex]

theorem sameArchitecture_account (s : State) (acc : Accounting) : SameArchitecture s (s.account acc) :=
  ⟨rfl, rfl, rfl, rfl, rfl, rfl, rfl, rfl, rfl⟩

/-! ### Reads and writes, with other accounting -/

section
variable (s : State) (acc : Accounting)

@[simp] theorem flags_account : (s.account acc).flags = s.flags := rfl

@[simp] theorem locRead_account (l : Location) : locRead (s.account acc) l = locRead s l := by cases l <;> rfl

@[simp] theorem setFlags_account (f : Flags) : (s.account acc).setFlags f = (s.setFlags f).account acc := rfl

theorem cpuWriteByte_account (b : Nat) (v : Byte) :
    cpuWriteByte (s.account acc) b v = (cpuWriteByte s b v).account acc := by
  rw [cpuWriteByte, cpuWriteByte, apply_ite (State.account · acc)]
  rfl

theorem memWrite_account (a : Nat) (v : Word) : memWrite (s.account acc) a v = (memWrite s a v).account acc := by
  rw [memWrite, cpuWriteByte_account, cpuWriteByte_account, memWrite]

@[simp] theorem locWrite_account (l : Location) (v : Word) :
    locWrite (s.account acc) l v = (locWrite s l v).account acc := by
  cases l with
  | reg i => rfl
  | mem a => exact memWrite_account s acc a v

end

/-! ### Resolutions -/

/-- A resolution that leaves other accounting. -/
def Resolution.account (x : Resolution) (acc : Accounting) : Resolution := ⟨x.loc, x.state.account acc⟩

/-- A mode is a tree of checks over what accounting does not change; each of its leaves leaves the accounting alone. -/
theorem resolve_account (o : Operand) (s : State) (acc : Accounting) :
    resolve o (s.account acc) = (resolve o s).account acc := by
  obtain ⟨m, r⟩ := o
  cases m with
  | direct => rfl
  | deferred | autoInc | autoIncDeferred | autoDec | autoDecDeferred | index | indexDeferred =>
    simp only [resolve, resolveDeferred, resolveAutoInc, resolveAutoIncDeferred, resolveAutoDec,
      resolveAutoDecDeferred, resolveIndex, resolveIndexDeferred, apply_ite (Resolution.account · acc)]
    rfl

/-! ### Instructions -/

theorem runSingle_account {effect : Location → State → State} {acc : Accounting}
    (heffect : ∀ ld st, effect ld (st.account acc) = (effect ld st).account acc) (dst : Operand) (s : State) :
    runSingle effect dst (s.account acc) = (runSingle effect dst s).account acc := by
  simp only [runSingle, resolve_account, Resolution.account]
  cases (resolve dst s).loc with
  | none => rfl
  | some ld => exact heffect ld _

theorem runDouble_account {effect : Location → Location → State → State} {acc : Accounting}
    (heffect : ∀ ls ld st, effect ls ld (st.account acc) = (effect ls ld st).account acc) (src dst : Operand)
    (s : State) : runDouble effect src dst (s.account acc) = (runDouble effect src dst s).account acc := by
  simp only [runDouble, resolveDouble, resolve_account, Resolution.account]
  cases (resolve src s).loc with
  | none => rfl
  | some ls =>
    cases (resolve dst (resolve src s).state).loc with
    | none => rfl
    | some ld => exact heffect ls ld _

theorem branchIf_account (cond : Bool) (off : Word) (s : State) (acc : Accounting) :
    branchIf cond off (s.account acc) = (branchIf cond off s).account acc := by
  cases cond <;> rfl

/-- Every effect is one location write and one flag write, of values that its reads decide. -/
theorem exec_account {i : Instr} {s t : State} (h : exec i s = .next t) (acc : Accounting) :
    exec i (s.account acc) = .next (t.account acc) := by
  cases i <;> (injection h with h; subst h; refine congrArg Host.Outcome.next ?_)
  case halt => rfl
  case clr dst => exact runSingle_account (fun ld st => by simp [effectClr]) dst s
  case inc dst => exact runSingle_account (fun ld st => by simp [effectInc]) dst s
  case dec dst => exact runSingle_account (fun ld st => by simp [effectDec]) dst s
  case neg dst => exact runSingle_account (fun ld st => by simp [effectNeg]) dst s
  case xor reg dst => exact runSingle_account (fun ld st => by simp [effectXor]) dst s
  case mov src dst => exact runDouble_account (fun ls ld st => by simp [effectMov]) src dst s
  case cmp src dst => exact runDouble_account (fun ls ld st => by simp [effectCmp]) src dst s
  case bit src dst => exact runDouble_account (fun ls ld st => by simp [effectBit]) src dst s
  case bic src dst => exact runDouble_account (fun ls ld st => by simp [effectBic]) src dst s
  case bis src dst => exact runDouble_account (fun ls ld st => by simp [effectBis]) src dst s
  case add src dst => exact runDouble_account (fun ls ld st => by simp [effectAdd]) src dst s
  case sub src dst => exact runDouble_account (fun ls ld st => by simp [effectSub]) src dst s
  all_goals exact branchIf_account _ _ s acc

/-! ### The step -/

/-- Recording writes accounting only. -/
theorem sameArchitecture_record {s t : State} (h : SameArchitecture s t) (w w' : Word) (i i' : Instr) :
    SameArchitecture (record w i s) (record w' i' t) :=
  ⟨h.regs, h.flags, h.mem, h.romLen, h.ramSize, h.videoSize, h.romSize, h.romWrite, h.indexArith⟩

theorem step_next_account {s s' : State} (h : step s = .next s') (acc : Accounting) :
    ∃ t', step (s.account acc) = .next t' ∧ SameArchitecture s' t' := by
  obtain ⟨i, u, hlo, hhi, hd, hexec, rfl⟩ := step_next_inversion h
  rw [memRead_eq_u16] at hd
  exact ⟨_, step_eq_next (s := s.account acc) hlo hhi hd (exec_account hexec acc),
    sameArchitecture_record (sameArchitecture_account u acc) _ _ i i⟩

theorem step_invalidOpcode_account {s s' : State} (h : step s = .fault (.invalidOpcode s')) (acc : Accounting) :
    step (s.account acc) = .fault (.invalidOpcode (s'.account acc)) := by
  obtain ⟨hlo, hhi, hrej, rfl⟩ := (step_invalidOpcode_iff s s').1 h
  exact (step_invalidOpcode_iff _ _).2 ⟨hlo, hhi, hrej, rfl⟩

/-- Settles O49: the second state is the first with other accounting, and each way a step can end is decided by, and
carries, nothing of it. -/
theorem accountingIsNeverRead : Obligations.AccountingIsNeverRead := by
  intro s t hst
  rw [sameArchitecture_iff.1 hst]
  generalize t.accounting = acc
  refine ⟨fun s' h => step_next_account h acc, fun h => ?_, fun h => ?_, fun s' h => ?_⟩
  · exact (step_finished_iff _).2 ((step_finished_iff s).1 h)
  · exact (step_addressOutOfRange_iff _).2 ((step_addressOutOfRange_iff s).1 h)
  · exact ⟨_, step_invalidOpcode_account h acc, sameArchitecture_account s' acc⟩

end Sys2Proof.Machine
end

section
/-! Frames: what each family of instructions leaves unchanged. An instruction that stores does so once, into the location
its destination resolved to, after resolutions that write registers only. -/

namespace Sys2Proof.Machine

open Sys2Proof.Vocabulary

theorem OnlyRegs.sameSurroundings {s t : State} (h : OnlyRegs s t) : SameSurroundings s t :=
  ⟨h.cfg, h.romLen, h.hist, h.itrace, h.wtrace⟩

theorem Tame.sameSurroundings {s t : State} (h : Tame s t) : SameSurroundings s t :=
  ⟨h.cfg, h.romLen, h.hist, h.itrace, h.wtrace⟩

/-! ### Registers and locations of resolutions -/

theorem reg_resolve (o : Operand) (s : State) {k : RegNum} (hk : ¬ ResolutionWrites o k) :
    (resolve o s).state.reg k = s.reg k :=
  let ⟨_, _, _, hkeep, _⟩ := resolutionFootprint o s
  hkeep k hk

theorem reg_resolve_resolve (src dst : Operand) (s : State) {k : RegNum} (hsrc : ¬ ResolutionWrites src k)
    (hdst : ¬ ResolutionWrites dst k) : (resolve dst (resolve src s).state).state.reg k = s.reg k :=
  (reg_resolve dst _ hdst).trans (reg_resolve src s hsrc)

/-- Only mode 0 gives a register, the operand's own. -/
theorem resolve_loc_reg {o : Operand} {s : State} {k : RegNum} (h : (resolve o s).loc = some (.reg k)) :
    o.mode = .direct ∧ k = o.reg :=
  let ⟨_, _, _, _, hreg, _⟩ := resolutionFootprint o s
  hreg k h

/-! ### One store after the resolutions -/

/-- What may have changed from `s` to `t` when resolutions that leave `rd` are followed by at most one store into its
location: `mayWrite` are the registers that the resolutions write, `failed` is that an operand did not resolve. -/
structure StoreFrame (rd : Resolution) (mayWrite : RegNum → Prop) (failed : Prop) (s t : State) : Prop where
  regs : ∀ k, ¬ mayWrite k → rd.loc ≠ some (.reg k) → t.reg k = s.reg k
  skipped : failed → t.flags = s.flags ∧ t.mem = s.mem
  register : ∀ k, rd.loc = some (.reg k) → t.mem = s.mem
  word : ∀ a, rd.loc = some (.mem a) → SameBytesOutsideWord s t a

section
variable {rd : Resolution} {mayWrite : RegNum → Prop} {failed : Prop} {s : State}

/-- A skipped effect leaves the resolutions' state. -/
theorem storeFrame_skipped (hregs : OnlyRegs s rd.state) (hkeep : ∀ k, ¬ mayWrite k → rd.state.reg k = s.reg k) :
    StoreFrame rd mayWrite failed s rd.state where
  regs := fun k hk _ => hkeep k hk
  skipped := fun _ => ⟨hregs.flags, hregs.mem⟩
  register := fun _ _ => hregs.mem
  word := fun _ _ _ _ _ => by rw [hregs.mem]

theorem storeFrame_store {ld : Location} (hregs : OnlyRegs s rd.state)
    (hkeep : ∀ k, ¬ mayWrite k → rd.state.reg k = s.reg k) (hloc : rd.loc = some ld) (hran : ¬ failed) (v : Word)
    (f : Flags) : StoreFrame rd mayWrite failed s ((locWrite rd.state ld v).setFlags f) where
  regs := fun k hk hne => by
    have hld : ld ≠ .reg k := fun h => hne (h ▸ hloc)
    rw [State.setFlags_reg, locWrite_reg, if_neg hld, hkeep k hk]
  skipped := fun hfailed => absurd hfailed hran
  register := fun k hk => by
    obtain rfl : ld = .reg k := Option.some.inj (hloc.symm.trans hk)
    exact hregs.mem
  word := fun a ha b hlow hhigh => by
    obtain rfl : ld = .mem a := Option.some.inj (hloc.symm.trans ha)
    exact (read_memWrite_other rd.state v hlow hhigh).trans (by rw [hregs.mem])

end

/-! ### Runs of a storing effect -/

/-- An effect that stores one value into its destination and sets the flags. -/
def storeEffect (value : Location → State → Word) (flags : Location → State → Flags) (ld : Location) (st : State) :
    State := (locWrite st ld (value ld st)).setFlags (flags ld st)

theorem runSingle_storeFrame (value : Location → State → Word) (flags : Location → State → Flags) (dst : Operand)
    (s : State) :
    StoreFrame (resolve dst s) (ResolutionWrites dst) ((resolve dst s).loc = none) s
      (runSingle (storeEffect value flags) dst s) := by
  have hregs := (resolve_sound dst s).state
  rcases runSingle_cases (storeEffect value flags) dst s with ⟨-, hrun⟩ | ⟨ld, hloc, hrun⟩ <;> rw [hrun]
  · exact storeFrame_skipped hregs fun _ => reg_resolve dst s
  · exact storeFrame_store hregs (fun _ => reg_resolve dst s) hloc (by simp [hloc]) _ _

theorem runDouble_storeFrame (value : Location → Location → State → Word) (flags : Location → Location → State → Flags)
    (src dst : Operand) (s : State) :
    StoreFrame (resolve dst (resolve src s).state) (fun k => ResolutionWrites src k ∨ ResolutionWrites dst k)
      ((resolve src s).loc = none ∨ (resolve dst (resolve src s).state).loc = none) s
      (runDouble (fun ls => storeEffect (value ls) (flags ls)) src dst s) := by
  have hregs := onlyRegs_resolve_resolve src dst s
  have hkeep (k : RegNum) (hk : ¬ (ResolutionWrites src k ∨ ResolutionWrites dst k)) :=
    reg_resolve_resolve src dst s (not_or.1 hk).1 (not_or.1 hk).2
  rcases runDouble_cases (fun ls => storeEffect (value ls) (flags ls)) src dst s with
    ⟨-, hrun⟩ | ⟨ls, ld, hsrc, hdst, hrun⟩ <;> rw [hrun]
  · exact storeFrame_skipped hregs hkeep
  · exact storeFrame_store hregs hkeep hdst (by simp [hsrc, hdst]) _ _

/-! ### The carry -/

theorem carry_runSingle {effect : Location → State → State} (heffect : ∀ ld st, (effect ld st).flags.c = st.flags.c)
    (dst : Operand) (s : State) : (runSingle effect dst s).flags.c = s.flags.c := by
  have hflags := (resolve_sound dst s).state.flags
  rcases runSingle_cases effect dst s with ⟨-, hrun⟩ | ⟨ld, -, hrun⟩ <;> rw [hrun]
  · rw [hflags]
  · rw [heffect, hflags]

theorem carry_runDouble {effect : Location → Location → State → State}
    (heffect : ∀ ls ld st, (effect ls ld st).flags.c = st.flags.c) (src dst : Operand) (s : State) :
    (runDouble effect src dst s).flags.c = s.flags.c := by
  have hflags := (onlyRegs_resolve_resolve src dst s).flags
  rcases runDouble_cases effect src dst s with ⟨-, hrun⟩ | ⟨ls, ld, -, -, hrun⟩ <;> rw [hrun]
  · rw [hflags]
  · rw [heffect, hflags]

/-! ### The instructions that store -/

/-- MOV, BIC, BIS, ADD and SUB run a storing effect; all but ADD and SUB set C to what it was. -/
theorem exec_storingDouble {i : Instr} {src dst : Operand}
    (hi : i = .mov src dst ∨ i = .bic src dst ∨ i = .bis src dst ∨ i = .add src dst ∨ i = .sub src dst) :
    ∃ (value : Location → Location → State → Word) (flags : Location → Location → State → Flags),
      (∀ s, exec i s = .next (runDouble (fun ls => storeEffect (value ls) (flags ls)) src dst s)) ∧
      (i.mnemonic ≠ .add → i.mnemonic ≠ .sub → ∀ ls ld st, (flags ls ld st).c = st.flags.c) := by
  rcases hi with rfl | rfl | rfl | rfl | rfl
  · exact ⟨_, _, fun _ => rfl, fun _ _ _ _ _ => rfl⟩
  · exact ⟨_, _, fun _ => rfl, fun _ _ _ _ _ => rfl⟩
  · exact ⟨_, _, fun _ => rfl, fun _ _ _ _ _ => rfl⟩
  · exact ⟨_, _, fun _ => rfl, fun hadd => absurd rfl hadd⟩
  · exact ⟨_, _, fun _ => rfl, fun _ hsub => absurd rfl hsub⟩

theorem exec_xor (reg : RegNum) (dst : Operand) : ∃ (value : Location → State → Word) (flags : Location → State → Flags),
    (∀ s, exec (.xor reg dst) s = .next (runSingle (storeEffect value flags) dst s)) ∧
      ∀ ld st, (flags ld st).c = st.flags.c :=
  ⟨_, _, fun _ => rfl, fun _ _ => rfl⟩

/-- CLR, INC, DEC and NEG run a storing effect; INC and DEC set C to what it was. -/
theorem exec_storingSingle {i : Instr} {dst : Operand}
    (hi : i = .clr dst ∨ i = .inc dst ∨ i = .dec dst ∨ i = .neg dst) :
    ∃ (value : Location → State → Word) (flags : Location → State → Flags),
      (∀ s, exec i s = .next (runSingle (storeEffect value flags) dst s)) ∧
      (i = .inc dst ∨ i = .dec dst → ∀ ld st, (flags ld st).c = st.flags.c) := by
  rcases hi with rfl | rfl | rfl | rfl
  · exact ⟨_, _, fun _ => rfl, nofun⟩
  · exact ⟨_, _, fun _ => rfl, fun _ _ _ => rfl⟩
  · exact ⟨_, _, fun _ => rfl, fun _ _ _ => rfl⟩
  · exact ⟨_, _, fun _ => rfl, nofun⟩

/-- Settles O34: one store after both resolutions, into the location of the destination's. -/
theorem storingDoubleFrame : Obligations.StoringDoubleFrame := by
  refine ⟨fun i src dst s t hi hexec => ?_, fun reg dst s t hexec => ?_⟩
  · have hsame := (exec_tame hexec).sameSurroundings
    obtain ⟨value, flags, hrun, hcarry⟩ := exec_storingDouble hi
    obtain rfl := Host.Outcome.next.inj ((hrun s).symm.trans hexec)
    have hframe := runDouble_storeFrame value flags src dst s
    exact ⟨hsame, fun k hsrc hdst hk => hframe.regs k (not_or.2 ⟨hsrc, hdst⟩) (mt resolve_loc_reg hk),
      fun hadd hsub => carry_runDouble (fun ls ld st => hcarry hadd hsub ls ld st) src dst s,
      hframe.skipped, hframe.register, hframe.word⟩
  · have hsame := (exec_tame hexec).sameSurroundings
    obtain ⟨value, flags, hrun, hcarry⟩ := exec_xor reg dst
    obtain rfl := Host.Outcome.next.inj ((hrun s).symm.trans hexec)
    have hframe := runSingle_storeFrame value flags dst s
    exact ⟨hsame, fun k hdst hk => hframe.regs k hdst (mt resolve_loc_reg hk), carry_runSingle hcarry dst s,
      hframe.skipped, hframe.register, hframe.word⟩

/-- Settles O36: one store after the resolution, into its location. -/
theorem singleFrame : Obligations.SingleFrame := by
  intro i dst s t hi hexec
  have hsame := (exec_tame hexec).sameSurroundings
  obtain ⟨value, flags, hrun, hcarry⟩ := exec_storingSingle hi
  obtain rfl := Host.Outcome.next.inj ((hrun s).symm.trans hexec)
  have hframe := runSingle_storeFrame value flags dst s
  exact ⟨hsame, fun k hdst hk => hframe.regs k hdst (mt resolve_loc_reg hk),
    fun hkeeps => carry_runSingle (hcarry hkeeps) dst s, hframe.skipped, hframe.register, hframe.word⟩

/-! ### The instructions that compare -/

/-- CMP and BIT write flags only, after both resolutions; BIT sets C to what it was. -/
theorem exec_comparingDouble {i : Instr} {src dst : Operand} (hi : i = .cmp src dst ∨ i = .bit src dst) :
    ∃ flags : Location → Location → State → Flags,
      (∀ s, exec i s = .next (runDouble (fun ls ld st => st.setFlags (flags ls ld st)) src dst s)) ∧
      (i.mnemonic = .bit → ∀ ls ld st, (flags ls ld st).c = st.flags.c) := by
  rcases hi with rfl | rfl
  · exact ⟨_, fun _ => rfl, nofun⟩
  · exact ⟨_, fun _ => rfl, fun _ _ _ _ => rfl⟩

/-- Setting flags after both resolutions leaves what the resolutions leave. -/
theorem runDouble_setFlags (flags : Location → Location → State → Flags) (src dst : Operand) (s : State) :
    ∃ f, runDouble (fun ls ld st => st.setFlags (flags ls ld st)) src dst s =
      (resolve dst (resolve src s).state).state.setFlags f := by
  rcases runDouble_cases (fun ls ld st => st.setFlags (flags ls ld st)) src dst s with
    ⟨-, hrun⟩ | ⟨ls, ld, -, -, hrun⟩
  · exact ⟨_, hrun⟩
  · exact ⟨_, hrun⟩

/-- Settles O35: flags are set in the state that the two resolutions leave. -/
theorem comparingDoubleFrame : Obligations.ComparingDoubleFrame := by
  intro i src dst s t hi hexec
  have hsame := (exec_tame hexec).sameSurroundings
  have hregs := onlyRegs_resolve_resolve src dst s
  obtain ⟨flags, hrun, hcarry⟩ := exec_comparingDouble hi
  obtain rfl := Host.Outcome.next.inj ((hrun s).symm.trans hexec)
  obtain ⟨f, hset⟩ := runDouble_setFlags flags src dst s
  refine ⟨hsame, ?_, fun k hsrc hdst => ?_, fun hbit => carry_runDouble (hcarry hbit) src dst s, fun hfail => ?_⟩
  · rw [hset, State.setFlags_mem, hregs.mem]
  · rw [hset, State.setFlags_reg, reg_resolve_resolve src dst s hsrc hdst]
  · rw [runDouble_failed _ hfail, hregs.flags]

/-! ### HALT and the branches -/

theorem eq_halt_of_fields {i : Instr} (h : i.fields = .noOperand) : i = .halt := by
  cases i <;> cases h
  rfl

/-- Every branch moves `pc` under a condition of its own. -/
theorem exec_of_fields_branch {i : Instr} {off : Word} (h : i.fields = .branch off) :
    ∃ cond : State → Bool, ∀ s, exec i s = .next (branchIf (cond s) off s) := by
  cases i <;> cases h
  all_goals exact ⟨_, fun _ => rfl⟩

theorem branchIf_cases (cond : Bool) (off : Word) (s : State) :
    branchIf cond off s = s ∨ branchIf cond off s = s.setPc (u16 (s.pc.toNat + 2 * off.toNat)) := by
  rw [← branch_target_eq_u16]
  cases cond
  · exact .inl rfl
  · exact .inr rfl

/-- A branch leaves the state, or the state with `pc` at the target. -/
theorem exec_branch_cases {i : Instr} {off : Word} {s t : State} (h : i.fields = .branch off)
    (hexec : exec i s = .next t) : t = s ∨ t = s.setPc (u16 (s.pc.toNat + 2 * off.toNat)) := by
  obtain ⟨cond, hrun⟩ := exec_of_fields_branch h
  obtain rfl := Host.Outcome.next.inj ((hrun s).symm.trans hexec)
  exact branchIf_cases _ off s

/-- Settles O37: HALT leaves the state, a branch writes `pc` or nothing. -/
theorem haltAndBranchFrame : Obligations.HaltAndBranchFrame := by
  rintro i s t (hhalt | ⟨off, hbranch⟩) hexec
  · obtain rfl := eq_halt_of_fields hhalt
    cases hexec
    exact ⟨sameSurroundings_refl s, rfl, rfl, fun _ _ => rfl⟩
  · rcases exec_branch_cases hbranch hexec with rfl | rfl
    · exact ⟨sameSurroundings_refl _, rfl, rfl, fun _ _ => rfl⟩
    · exact ⟨sameSurroundings_setPc s _, rfl, rfl, fun k hk => State.reg_setPc_other s k _ hk⟩

/-- Settles O22: an offset in 0..255 moves `pc` by 0 to 510, and by nothing if it is 0. -/
theorem branchesGoForwardOnly : Obligations.BranchesGoForwardOnly := by
  intro i off s t hwf hbranch hexec
  have hoff : off.toNat < 256 := by
    rw [Instr.wellFormed, hbranch] at hwf
    exact of_decide_eq_true hwf
  rcases exec_branch_cases hbranch hexec with rfl | rfl
  · exact ⟨.inl rfl, fun _ => ⟨le_rfl, Nat.le_add_right _ _⟩, id, fun _ => rfl⟩
  · rw [State.pc_setPc, toNat_u16]
    refine ⟨.inr rfl, fun _ => by omega, fun _ => by omega, ?_⟩
    rintro rfl
    exact (congrArg s.setPc (u16_toNat s.pc)).trans (State.setReg_self s pcNum)

end Sys2Proof.Machine
end

section
/-! Side effects of addressing (41_addressing_modes.md R106; 40_execution_engine.md R93; 44_halt_and_branches.md R123;
decision D18): repeated resolutions, the three readings of an index, and effects on a register that is also an operand's. -/

namespace Sys2Proof.Machine

open Sys2Proof.Vocabulary

/-! ### Repeated resolutions -/

/-- Where the last check of a mode passed, the resolution left the state of that branch. -/
theorem state_of_check {a : Nat} {t u : State} {l : Location} {c : Prop} [Decidable c]
    (h : (if c then resolvesToMem a t else resolutionFails u).loc = some l) :
    (if c then resolvesToMem a t else resolutionFails u).state = t := by
  split_ifs at h ⊢
  · rfl
  · cases h

/-- A resolution in mode 2 or 3 that succeeds has raised the register by 2. -/
theorem state_of_autoInc {o : Operand} {s : State} {l : Location}
    (hmode : o.mode = .autoInc ∨ o.mode = .autoIncDeferred) (h : (resolve o s).loc = some l) :
    (resolve o s).state = s.setReg o.reg (u16 ((s.reg o.reg).toNat + 2)) := by
  obtain ⟨m, r⟩ := o
  rcases hmode with rfl | rfl
  · rw [resolve, resolveAutoInc_eq] at h ⊢
    exact state_of_check h
  · rw [resolve, resolveAutoIncDeferred_eq] at h ⊢
    exact state_of_check h

/-- A resolution in mode 4 or 5 that succeeds found the register at 2 at least and has lowered it by 2. -/
theorem state_of_autoDec {o : Operand} {s : State} {l : Location}
    (hmode : o.mode = .autoDec ∨ o.mode = .autoDecDeferred) (h : (resolve o s).loc = some l) :
    2 ≤ (s.reg o.reg).toNat ∧ (resolve o s).state = s.setReg o.reg (u16 ((s.reg o.reg).toNat - 2)) := by
  obtain ⟨m, r⟩ := o
  rcases hmode with rfl | rfl
  · rw [resolve] at h ⊢
    rcases lt_or_ge (s.reg r).toNat 2 with hx | hx
    · rw [resolveAutoDec_below hx] at h; cases h
    · rw [resolveAutoDec_eq hx] at h ⊢
      exact ⟨hx, state_of_check h⟩
  · rw [resolve] at h ⊢
    rcases lt_or_ge (s.reg r).toNat 2 with hx | hx
    · rw [resolveAutoDecDeferred_below hx] at h; cases h
    · rw [resolveAutoDecDeferred_eq hx] at h ⊢
      exact ⟨hx, state_of_check h⟩

theorem resolveTimes_succ {o : Operand} {n : Nat} {s t : State} (h : resolveTimes o (n + 1) s = some t) :
    ∃ l, (resolve o s).loc = some l ∧ resolveTimes o n (resolve o s).state = some t := by
  rw [resolveTimes] at h
  split at h
  · next l hl => exact ⟨l, hl, h⟩
  · cases h

theorem resolveTimes_zero {o : Operand} {s t : State} (h : resolveTimes o 0 s = some t) :
    t = s.setReg o.reg (u16 (s.reg o.reg).toNat) := by
  rw [u16_toNat, State.setReg_self]
  exact (Option.some.inj h).symm

theorem resolveTimes_autoInc {o : Operand} {n : Nat} {s t : State}
    (hmode : o.mode = .autoInc ∨ o.mode = .autoIncDeferred) (h : resolveTimes o n s = some t) :
    t = s.setReg o.reg (u16 ((s.reg o.reg).toNat + 2 * n)) := by
  induction n generalizing s with
  | zero => exact resolveTimes_zero h
  | succ n ih =>
    obtain ⟨l, hl, hrest⟩ := resolveTimes_succ h
    rw [ih hrest, state_of_autoInc hmode hl, State.setReg_setReg, State.reg_setReg_same]
    congr 1
    apply BitVec.eq_of_toNat_eq
    simp only [toNat_u16]
    omega

theorem resolveTimes_autoDec {o : Operand} {n : Nat} {s t : State}
    (hmode : o.mode = .autoDec ∨ o.mode = .autoDecDeferred) (h : resolveTimes o n s = some t) :
    2 * n ≤ (s.reg o.reg).toNat ∧ t = s.setReg o.reg (u16 ((s.reg o.reg).toNat - 2 * n)) := by
  induction n generalizing s with
  | zero => exact ⟨Nat.zero_le _, resolveTimes_zero h⟩
  | succ n ih =>
    obtain ⟨l, hl, hrest⟩ := resolveTimes_succ h
    obtain ⟨htwo, hstate⟩ := state_of_autoDec hmode hl
    obtain ⟨hle, rfl⟩ := ih hrest
    have hlt := (s.reg o.reg).isLt
    have hlowered : (u16 ((s.reg o.reg).toNat - 2)).toNat = (s.reg o.reg).toNat - 2 := by
      rw [toNat_u16, Nat.mod_eq_of_lt (by omega)]
    rw [hstate, State.reg_setReg_same, hlowered] at hle
    rw [hstate, State.setReg_setReg, State.reg_setReg_same, hlowered, Nat.sub_sub, Nat.add_comm 2, ← Nat.mul_succ]
    exact ⟨by omega, rfl⟩

/-- Settles O31: by induction on the number of resolutions, for each pair of modes. -/
theorem repeatedAutoResolutionsMoveByTwo : Obligations.RepeatedAutoResolutionsMoveByTwo := by
  refine fun r n s t => ⟨?_, ?_⟩
  · rintro (h | h)
    · exact resolveTimes_autoInc (.inl rfl) h
    · exact resolveTimes_autoInc (.inr rfl) h
  · rintro (h | h)
    · exact resolveTimes_autoDec (.inl rfl) h
    · exact resolveTimes_autoDec (.inr rfl) h

/-! ### The readings of index arithmetic -/

theorem indexSum_in_range {r x : Nat} (k : IndexArith) (hsum : r + x < 65536) (hx : x ≤ 0x7FFF) :
    indexSum k r x = (r + x : Nat) := by
  cases k with
  | unsigned => rfl
  | wrap16 => rw [indexSum, Nat.mod_eq_of_lt hsum]
  | signed => rw [indexSum, signed16, if_pos (by omega)]; rfl

/-- Legal parameters make an address space of at most 2^16 bytes (00_scope.md R16). -/
theorem size_le {c : Config} (h : c.wf = true) : c.size ≤ 65536 := by
  simp only [Config.wf, Bool.and_eq_true, decide_eq_true_eq] at h
  omega

theorem resolve_index_loc {r : RegNum} {s : State} {e : Nat} (hi : InBounds s s.pc.toNat)
    (haddress : indexAddress r s = e) (he : InBounds s e) : (resolve ⟨.index, r⟩ s).loc = some (.mem e) := by
  rw [resolve, resolveIndex_eq, if_pos (valid_iff_inBounds.2 hi), haddress, if_pos (valid_iff_inBounds.2 he)]
  rfl

/-- Settles O32: a valid address is below 2^16, so no reading wraps, and the index word is not negative. -/
theorem indexReadingsAgreeInRange : Obligations.IndexReadingsAgreeInRange := by
  intro r s k moved x e hwf hi he hx
  have hsize := size_le hwf
  have hsum : (moved.reg r).toNat + x < 65536 := by
    have hle : (e : Int) ≤ (s.cfg.size : Int) - 2 := he.2
    omega
  have haddress : indexAddress r { s with cfg := { s.cfg with indexArith := k } } = (e : Nat) :=
    indexSum_in_range k hsum hx
  exact resolve_index_loc hi haddress he

/-! ### Effects on a register that is also an operand's -/

/-- MOV of a register to the location that its own resolution gives stores the register as the resolution left it. -/
theorem exec_mov_own {m : Mode} {r : RegNum} {a : Nat} {v : Word} {s : State}
    (hdst : resolve ⟨m, r⟩ s = ⟨some (.mem a), s.setReg r v⟩) :
    ∃ t, exec (.mov ⟨.direct, r⟩ ⟨m, r⟩) s = .next t ∧ t.reg r = v ∧ t.mem = (memWrite (s.setReg r v) a v).mem := by
  refine ⟨_, congrArg Host.Outcome.next (runDouble_resolved effectMov (src := ⟨.direct, r⟩) rfl hdst), ?_, ?_⟩
  · rw [effectMov, State.setFlags_reg, locWrite, memWrite_reg, State.reg_setReg_same]
  · rw [effectMov, State.setFlags_mem, locRead, locWrite, State.reg_setReg_same]

theorem add_u16_eq (w : Word) (n : Nat) : w + u16 n = u16 (n + w.toNat) := by
  apply BitVec.eq_of_toNat_eq
  rw [toNat_add_word, toNat_u16, toNat_u16]
  omega

theorem exec_add_own {r : RegNum} {a : Nat} {v : Word} {s : State}
    (hsrc : resolve ⟨.autoInc, r⟩ s = ⟨some (.mem a), s.setReg r v⟩) :
    ∃ t, exec (.add ⟨.autoInc, r⟩ ⟨.direct, r⟩) s = .next t ∧ t.reg r = memRead (s.setReg r v) a + v ∧
      t.mem = s.mem := by
  refine ⟨_, congrArg Host.Outcome.next (runDouble_resolved effectAdd hsrc (dst := ⟨.direct, r⟩) rfl), ?_, rfl⟩
  rw [effectAdd, State.setFlags_reg, locWrite, State.reg_setReg_same, locRead, locRead, State.reg_setReg_same]

theorem exec_xor_own {r : RegNum} {a : Nat} {v : Word} {s : State}
    (hdst : resolve ⟨.autoInc, r⟩ s = ⟨some (.mem a), s.setReg r v⟩) :
    ∃ t, exec (.xor r ⟨.autoInc, r⟩) s = .next t ∧ t.reg r = v ∧
      t.mem = (memWrite (s.setReg r v) a (v ^^^ memRead s a)).mem := by
  refine ⟨_, congrArg Host.Outcome.next (runSingle_resolved (effectXor (.reg r)) hdst), ?_, ?_⟩
  · rw [effectXor, State.setFlags_reg, locWrite, memWrite_reg, State.reg_setReg_same]
  · rw [effectXor, State.setFlags_mem, locRead, locRead, locWrite, State.reg_setReg_same]
    rfl

/-- Settles O33: the register an effect reads is the one the resolutions left. -/
theorem effectSeesResolutionSideEffects : Obligations.EffectSeesResolutionSideEffects := by
  intro r s a
  obtain ⟨hinc, -⟩ := autoIncrementModes r s
  obtain ⟨hdec, -⟩ := autoDecrementModes r s
  refine ⟨fun ha => exec_mov_own (hinc ha), fun hx ha => ?_, fun ha => ?_, fun ha => ?_⟩
  · have hcast : ((a - 2 : Nat) : Int) = (a : Int) - 2 := by omega
    exact exec_mov_own (hdec hx (hcast ▸ ha))
  · obtain ⟨t, hexec, hreg, hmem⟩ := exec_add_own (hinc ha)
    exact ⟨t, hexec, hreg.trans (add_u16_eq _ _), hmem⟩
  · obtain ⟨t, hexec, hreg, hmem⟩ := exec_xor_own (hinc ha)
    refine ⟨t, hexec, hreg, ?_⟩
    rw [← toNat_u16, ← memRead_toNat, ← BitVec.toNat_xor, u16_toNat]
    exact hmem

/-- Settles O23: `r7` as a destination is a register, so the result is `pc` and no byte is written. -/
theorem writingR7TransfersControl : Obligations.WritingR7TransfersControl := by
  refine ⟨fun src s s1 ls hsrc => ?_, fun src s s1 ls hsrc => ?_, fun s => ?_⟩
  · have hmem : s1.mem = s.mem := by simpa [hsrc] using (resolve_sound src s).state.mem
    refine ⟨_, congrArg Host.Outcome.next (runDouble_resolved effectMov hsrc (dst := ⟨.direct, 7⟩) rfl), ?_, hmem⟩
    exact State.pc_setPc s1 _
  · have hmem : s1.mem = s.mem := by simpa [hsrc] using (resolve_sound src s).state.mem
    refine ⟨_, congrArg Host.Outcome.next (runDouble_resolved effectAdd hsrc (dst := ⟨.direct, 7⟩) rfl), ?_, hmem⟩
    rw [Nat.add_comm, ← toNat_add_word]
    exact congrArg BitVec.toNat (State.pc_setPc s1 _)
  · refine ⟨_, congrArg Host.Outcome.next (runSingle_resolved effectClr (dst := ⟨.direct, 7⟩) rfl), ?_, rfl⟩
    exact State.pc_setPc s 0

end Sys2Proof.Machine
end

section
/-! The regions (20_memory.md R46) and the step (40_execution_engine.md R92, 60_exceptions.md R144). -/

namespace Sys2Proof.Machine

open Sys2Proof.Vocabulary

/-! ### Regions -/

theorem region_eq_none_iff (c : Config) (b : Nat) : region c b = none ↔ c.size ≤ b := by
  have hsize : c.size = c.romBase + c.romSize := rfl
  have hbase : c.romBase = c.ramSize + c.videoSize := rfl
  unfold region
  split_ifs
  · exact iff_of_false nofun (by omega)
  · exact iff_of_false nofun (by omega)
  · exact iff_of_false nofun (by omega)
  · exact iff_of_true rfl (by omega)

/-- Settles O39: the three regions follow each other, and `SIZE` ends the last. -/
theorem regionsPartitionTheSpace : Obligations.RegionsPartitionTheSpace := by
  intro c b
  have hbase : c.romBase = c.ramSize + c.videoSize := rfl
  have hvideo : c.videoBase = c.ramSize := rfl
  refine ⟨fun hram => if_pos hram, fun hlo hhi => ?_, fun hlo hhi => ?_, (region_eq_none_iff c b).symm⟩
  · rw [region, if_neg (by omega), if_pos hhi, hvideo]
  · rw [region, if_neg (by omega), if_neg (by omega), if_pos hhi]

/-! ### The step -/

/-- Settles O43: the step runs the decoded instruction, which always answers a next state, and records it. -/
theorem stepRunsTheDecodedInstruction : Obligations.StepRunsTheDecodedInstruction := by
  intro s i hlo hhi hd
  obtain ⟨u, hexec⟩ := exec_total i (s.setPc (s.pc + 2))
  have hstep := step_eq_next hlo hhi hd hexec
  rw [add_two_eq_u16] at hexec
  exact ⟨u, hexec, hstep⟩

theorem step_not_refused (s : State) (r : Refusal) : step s ≠ .refused r := by
  rcases step_cases s with ⟨-, hst⟩ | ⟨-, -, hst⟩ | ⟨-, -, -, hst⟩ | ⟨-, -, i, u, -, -, hst⟩ <;> rw [hst] <;> nofun

theorem step_next_iff (s : State) :
    (∃ t, step s = .next t) ↔
      (s.cfg.romBase ≤ s.pc.toNat ∧ s.pc.toNat + 2 ≤ s.endAddr) ∧ ∃ i, decode (u16 (wordAt s s.pc.toNat)) = .instr i := by
  refine ⟨fun ⟨t, hst⟩ => ?_, fun ⟨⟨hlo, hhi⟩, i, hd⟩ => step_continues hlo hhi hd⟩
  obtain ⟨i, u, hlo, hhi, hd, -, -⟩ := step_next_inversion hst
  exact ⟨⟨hlo, hhi⟩, i, memRead_eq_u16 s _ ▸ hd⟩

/-- A word decodes or is rejected, not both. -/
theorem decode_rejected_iff_not_instr (w : Word) : decode w = .rejected .invalidOpcode ↔ ¬ ∃ i, decode w = .instr i := by
  cases hd : decode w with
  | instr i => simp
  | rejected e =>
    obtain ⟨-, rfl⟩ := decode_rejected.1 hd
    simp

/-- A step stops exactly when it does not continue. -/
theorem step_fault_iff (s : State) : (∃ r, step s = .fault r) ↔ ¬ ∃ t, step s = .next t := by
  cases hst : step s with
  | next t => simp
  | fault r => simp
  | refused r => exact absurd hst (step_not_refused s r)

/-- Settles O44: the checks in their order are `step_cases`; a step stops exactly when it does not continue. -/
theorem stepOutcomePriority : Obligations.StepOutcomePriority := by
  intro s w atEnd fetchable
  refine ⟨(step_finished_iff s).2, step_addressOutOfRange, fun _ hf hrej => ?_, fun _ hf i => step_continues hf.1 hf.2,
    step_next_iff s, ?_, step_not_refused s, fun hfin hf => ?_⟩
  · exact (step_invalidOpcode_iff s _).2 ⟨hf.1, hf.2, hrej, by rw [add_two_eq_u16]⟩
  · rw [step_fault_iff, step_next_iff, not_and_or, ← decode_rejected_iff_not_instr]
    rfl
  · have hend : s.pc.toNat = s.endAddr := (step_finished_iff s).1 hfin
    have hhi : s.pc.toNat + 2 ≤ s.endAddr := hf.2
    omega

end Sys2Proof.Machine
end

section
/-! The host between steps (60_exceptions.md R150 to R152; 20_memory.md R56, R60; 70_reset_and_hazards.md R161): the
accessors, the observers, and what a load or a store puts where the next step fetches. -/

namespace Sys2Proof.Machine

open Sys2Proof.Vocabulary

/-! ### Accessors -/

theorem hostSetReg_lt {i : Nat} (h : i < 8) (v : Word) (s : State) :
    hostSetReg i v s = .answered .done (s.setReg ⟨i, h⟩ v) := dif_pos h

theorem hostReadReg_lt {i : Nat} (h : i < 8) (s : State) :
    hostReadReg i s = .answered (.word (s.reg ⟨i, h⟩)) s := dif_pos h

theorem hostSetReg_ge {i : Nat} (h : 8 ≤ i) (v : Word) (s : State) :
    hostSetReg i v s = .refused (.noSuchRegister i) := dif_neg (Nat.not_lt.2 h)

theorem hostReadReg_ge {i : Nat} (h : 8 ≤ i) (s : State) :
    hostReadReg i s = .refused (.noSuchRegister i) := dif_neg (Nat.not_lt.2 h)

/-- `SetFlag` of a flag that is named: reading it back gives the value, reading any other gives what it was. -/
theorem setFlagNamed_named {f : Char} (hf : f = 'N' ∨ f = 'Z' ∨ f = 'V' ∨ f = 'C') (b : Bool) (s : State) :
    ∃ fl, setFlagNamed f b s = some (s.setFlags fl) ∧ readFlagNamed f (s.setFlags fl) = some b ∧
      ∀ g, g ≠ f → readFlagNamed g (s.setFlags fl) = readFlagNamed g s := by
  rcases hf with rfl | rfl | rfl | rfl <;> exact ⟨_, rfl, rfl, fun g hg => by simp [readFlagNamed, hg]⟩

theorem setFlagNamed_unnamed {f : Char} (hn : f ≠ 'N') (hz : f ≠ 'Z') (hv : f ≠ 'V') (hc : f ≠ 'C') (b : Bool)
    (s : State) : setFlagNamed f b s = none := by
  rw [setFlagNamed, if_neg hn, if_neg hz, if_neg hv, if_neg hc]

theorem readFlagNamed_unnamed {f : Char} (hn : f ≠ 'N') (hz : f ≠ 'Z') (hv : f ≠ 'V') (hc : f ≠ 'C') (s : State) :
    readFlagNamed f s = none := by
  rw [readFlagNamed, if_neg hn, if_neg hz, if_neg hv, if_neg hc]

/-- Settles O56: an accessor of a register or flag that exists is the write or read of it, and any other is refused. -/
theorem hostAccessors : Obligations.HostAccessors := by
  refine ⟨fun i v s => ⟨fun hi => ?_, fun hi => ⟨hostSetReg_ge hi v s, hostReadReg_ge hi s⟩⟩,
    fun f b s => ⟨fun hf => ?_, fun hn hz hv hc => ?_⟩⟩
  · refine ⟨_, hostSetReg_lt hi v s, ?_, fun k hk => ?_, rfl, rfl, (onlyRegs_setReg s _ v).sameSurroundings⟩
    · rw [transact, hostReadReg_lt hi, State.reg_setReg_same]
    · exact State.reg_setReg_other s _ k v fun h => hk (congrArg Fin.val h)
  · obtain ⟨fl, hset, hread, hother⟩ := setFlagNamed_named hf b s
    refine ⟨s.setFlags fl, ?_, ?_, hother, rfl, rfl, (tame_setFlags s fl).sameSurroundings⟩
    · rw [transact, hostSetFlag, hset]
    · rw [transact, hostReadFlag, hread]
  · rw [transact, hostSetFlag, setFlagNamed_unnamed hn hz hv hc, transact, hostReadFlag,
      readFlagNamed_unnamed hn hz hv hc]
    exact ⟨rfl, rfl⟩

/-! ### Observers -/

theorem length_lastEntries {α : Type} (n : Nat) (l : List α) : (lastEntries n l).length = min n l.length := by
  rw [lastEntries, List.length_drop]
  omega

/-- The last entries are what is left after the first ones. -/
theorem take_append_lastEntries {α : Type} (n : Nat) (l : List α) :
    l = l.take (l.length - n) ++ lastEntries n l := (List.take_append_drop _ l).symm

/-- Settles O57: both observers answer `lastEntries` of their trace. -/
theorem traceObserversGiveTheLastEntries : Obligations.TraceObserversGiveTheLastEntries := fun n s =>
  ⟨_, _, _, _, rfl, rfl, take_append_lastEntries n s.itrace, take_append_lastEntries n s.wtrace,
    length_lastEntries n s.itrace, length_lastEntries n s.wtrace⟩

/-! ### A loaded image -/

/-- A snapshot at least as long as the image, which fits ROM, begins with it (20_memory.md R60). -/
theorem loadImage_prefix_romSnapshot {s : State} {image : List Byte} {n : Nat} (hm : Memory.wf s.mem = true)
    (hrom : image.length ≤ s.cfg.romSize) (hn : image.length ≤ n) : image <+: romSnapshot (loadImage image s) n := by
  rw [List.prefix_iff_getElem?]
  intro k hk
  have hlt : k < min n s.cfg.romSize := by omega
  rw [← List.getElem?_eq_getElem hk, ← read_loadImage_inside hm image hk]
  exact Memory.getElem?_readBytes _ _ hlt

/-- Settles O54: the answer `done` says that the image fits ROM, and the snapshot then begins with it. -/
theorem loadThenRomSnapshot : Obligations.LoadThenRomSnapshot := by
  intro bytes n s t hm hn h
  rcases hostLoad_answered h with ⟨habsurd, -⟩ | ⟨-, hrom, -, rfl⟩
  · cases habsurd
  · rw [List.take_length]
    obtain ⟨rest, hrest⟩ := loadImage_prefix_romSnapshot hm hrom hn
    exact ⟨rest, by rw [transact, hrest]⟩

/-! ### Words placed where the next step fetches -/

/-- The fetch of a word in the window, with `pc` past it as a number. -/
theorem fetch_word {s : State} {n : Nat} (hlo : s.cfg.romBase ≤ s.pc.toNat) (hhi : s.pc.toNat + 2 ≤ s.endAddr)
    (hword : wordAt s s.pc.toNat = n) : fetch s = .word (u16 n) (s.setPc (u16 (s.pc.toNat + 2))) := by
  rw [fetch_in_window hlo hhi, hword, add_two_eq_u16]

/-- The first two of a run of stored bytes are the word at its address. -/
theorem wordAt_of_writeBytes {s : State} {m : Memory} {a : Nat} {lo hi : Byte} {rest : List Byte}
    (hm : Memory.wf m = true) (hs : s.mem = m.writeBytes a (lo :: hi :: rest)) :
    wordAt s a = lo.toNat + 256 * hi.toNat := by
  have hlo : s.mem.read a = lo := by rw [hs, Memory.read_writeBytes hm]; simp
  have hhi : s.mem.read (a + 1) = hi := by rw [hs, Memory.read_writeBytes hm]; simp
  rw [wordAt, hlo, hhi]

theorem toNat_u16_of_lt {n : Nat} (h : n < 65536) : (u16 n).toNat = n := (toNat_u16 n).trans (Nat.mod_eq_of_lt h)

/-- The state after the three transactions of a boot (70_reset_and_hazards.md R161). -/
def booted (image : List Byte) (s : State) : State := (loadImage image (hostReset s)).setPc (u16 s.cfg.romBase)

theorem booted_of_transactions {s s1 s2 s3 : State} {image : List Byte} (hreset : transact .reset s = .answered .done s1)
    (hload : transact (.load image image.length) s1 = .answered .done s2)
    (hset : transact (.setReg 7 (u16 s.cfg.romBase)) s2 = .answered .done s3) : s3 = booted image s := by
  cases hreset
  rcases hostLoad_answered hload with ⟨habsurd, -⟩ | ⟨-, -, -, rfl⟩
  · cases habsurd
  · cases hset
    rw [List.take_length]
    rfl

theorem pc_booted {s : State} (hc : s.cfg.wf = true) (image : List Byte) :
    (booted image s).pc.toNat = s.cfg.romBase := by
  have hrom := romBase_add_two_le hc
  rw [booted, State.pc_setPc, toNat_u16_of_lt (by omega)]

/-- After a boot the word at `pc` is the image's first. -/
theorem wordAt_booted {s : State} {lo hi : Byte} {rest : List Byte} (hc : s.cfg.wf = true)
    (hm : Memory.wf s.mem = true) :
    wordAt (booted (lo :: hi :: rest) s) (booted (lo :: hi :: rest) s).pc.toNat = lo.toNat + 256 * hi.toNat := by
  rw [pc_booted hc]
  exact wordAt_of_writeBytes (m := (hostReset s).mem) (Memory.wf_clearRange hm _ _) rfl

theorem pc_booted_in_window {s : State} {lo hi : Byte} {rest : List Byte} (hc : s.cfg.wf = true) :
    (booted (lo :: hi :: rest) s).cfg.romBase ≤ (booted (lo :: hi :: rest) s).pc.toNat ∧
      (booted (lo :: hi :: rest) s).pc.toNat + 2 ≤ (booted (lo :: hi :: rest) s).endAddr := by
  have hend : (booted (lo :: hi :: rest) s).endAddr = s.cfg.romBase + (rest.length + 2) := rfl
  rw [pc_booted hc, hend]
  exact ⟨le_rfl, by omega⟩

/-- Settles O58: `pc` is at the image's first word, inside the window, and the traces are empty. -/
theorem bootFetchesTheImage : Obligations.BootFetchesTheImage := by
  intro s s1 s2 s3 lo hi rest hc hm hreset hload hset
  obtain rfl : s3 = booted (lo :: hi :: rest) s := booted_of_transactions hreset hload hset
  obtain ⟨hlo, hhi⟩ := pc_booted_in_window (lo := lo) (hi := hi) (rest := rest) hc
  have hword := wordAt_booted (lo := lo) (hi := hi) (rest := rest) hc hm
  rw [← hword]
  refine ⟨fun i hd => ?_, fun hrej => (step_invalidOpcode_iff _ _).2 ⟨hlo, hhi, hrej, ?_⟩⟩
  · obtain ⟨t, hst⟩ := step_continues hlo hhi hd
    obtain ⟨-, -, -, -, -, hwtrace, -⟩ := step_next_surroundings hst
    exact ⟨t, hst, by rw [hwtrace, memRead_eq_u16]; rfl⟩
  · rw [add_two_eq_u16, pc_booted hc]

/-! ### CPU stores into the fetch window -/

theorem wordOfBytes_low_high (v : Word) : wordOfBytes (lowByte v) (highByte v) = v := by
  apply BitVec.eq_of_toNat_eq
  rw [wordOfBytes_toNat, lowByte_toNat, highByte_toNat]
  omega

theorem memRead_memWrite_store {s : State} (hm : Memory.wf s.mem = true) (hstore : s.cfg.romWrite = .store) (a : Nat)
    (v : Word) : memRead (memWrite s a v) a = v := by
  have hkept (b : Nat) : ¬ (s.cfg.romBase ≤ b ∧ s.cfg.romWrite = .drop) := fun h => by simp [hstore] at h
  rw [memRead, read_memWrite_low hm (hkept a), read_memWrite_high hm (hkept (a + 1)), wordOfBytes_low_high]

theorem memRead_memWrite_drop {s : State} {a : Nat} (hm : Memory.wf s.mem = true) (hdrop : s.cfg.romWrite = .drop)
    (ha : s.cfg.romBase ≤ a) (v : Word) : memRead (memWrite s a v) a = memRead s a := by
  rw [memRead, read_memWrite_dropped hm ⟨ha, hdrop⟩, read_memWrite_dropped hm ⟨Nat.le_succ_of_le ha, hdrop⟩, memRead]

/-- Settles O59: the fetch reads the word that the write left at its address. -/
theorem storesIntoTheFetchWindowAreFetched : Obligations.StoresIntoTheFetchWindowAreFetched := by
  intro s a v hm hlo hhi ha t
  have hpc : t.pc.toNat = a := by rw [State.pc_setPc, toNat_u16_of_lt ha]
  have hfetch : fetch t = .word (memRead (memWrite s a v) a) (t.setPc (u16 (a + 2))) := by
    have hbase : t.cfg.romBase = s.cfg.romBase := congrArg Config.romBase (memWrite_cfg s a v)
    have hend : t.endAddr = s.cfg.romBase + s.romLen := by
      rw [endAddr_eq, hbase, State.setPc_romLen, memWrite_romLen]
    have hword : wordAt t t.pc.toNat = wordAt (memWrite s a v) a := by rw [hpc]; rfl
    rw [memRead_eq_u16, fetch_word (by omega) (by omega) hword, hpc]
  rw [hfetch]
  exact ⟨fun hstore => by rw [memRead_memWrite_store hm hstore], fun hdrop => by rw [memRead_memWrite_drop hm hdrop hlo]⟩

/-! ### The model's placement of a word -/

/-- The first two bytes placed for a 16-bit word are those of the word, low byte first. -/
theorem take_tableWordBytes {w n : Nat} (hw : w < 65536) (hn : 2 ≤ n) :
    ∃ (lo hi : Byte) (rest : List Byte), (tableWordBytes 16 w).take n = lo :: hi :: rest ∧
      lo.toNat + 256 * hi.toNat = w := by
  obtain ⟨k, rfl⟩ := Nat.exists_eq_add_of_le' hn
  refine ⟨_, _, _, rfl, ?_⟩
  rw [BitVec.toNat_ofNat, BitVec.toNat_ofNat]
  omega

/-- With `pc` in the fetch window the bytes are stored there. -/
theorem placeAtFetch_inside {s : State} (h : fetchValid s s.pc.toNat = true) (bytes : List Byte) :
    placeAtFetch bytes s = { s with mem := s.mem.writeBytes s.pc.toNat (bytes.take (s.cfg.size - s.pc.toNat)) } :=
  if_pos h

/-- With `pc` outside the fetch window the bytes are booted. -/
theorem placeAtFetch_outside {s : State} (h : ¬ fetchValid s s.pc.toNat = true) (bytes : List Byte) :
    placeAtFetch bytes s = setPcToRom (loadImage (bytes.take s.cfg.romSize) s) := if_neg h

theorem fetch_placed_inside {s : State} {w : Nat} (hm : Memory.wf s.mem = true) (hrom : s.romLen ≤ s.cfg.romSize)
    (hw : w < 65536) (h : fetchValid s s.pc.toNat = true) :
    let t := placeAtFetch (tableWordBytes 16 w) s
    fetch t = .word (u16 w) (t.setPc (u16 (t.pc.toNat + 2))) := by
  obtain ⟨hlo, hhi⟩ := (fetchValid_nat _ _).1 h
  have hroom : 2 ≤ s.cfg.size - s.pc.toNat := by
    have hsize : s.cfg.size = s.cfg.romBase + s.cfg.romSize := rfl
    rw [endAddr_eq] at hhi
    omega
  obtain ⟨lo, hi, rest, himage, hword⟩ := take_tableWordBytes hw hroom
  rw [placeAtFetch_inside h, himage]
  exact fetch_word hlo hhi ((wordAt_of_writeBytes hm rfl).trans hword)

theorem romSize_ge_two {c : Config} (h : c.wf = true) : 2 ≤ c.romSize := by
  simp only [Config.wf, Bool.and_eq_true, decide_eq_true_eq] at h
  omega

theorem fetch_placed_outside {s : State} {w : Nat} (hc : s.cfg.wf = true) (hm : Memory.wf s.mem = true)
    (hw : w < 65536) (h : ¬ fetchValid s s.pc.toNat = true) :
    let t := placeAtFetch (tableWordBytes 16 w) s
    fetch t = .word (u16 w) (t.setPc (u16 (t.pc.toNat + 2))) := by
  obtain ⟨lo, hi, rest, himage, hword⟩ := take_tableWordBytes hw (romSize_ge_two hc)
  rw [placeAtFetch_outside h, himage]
  have hpc : (setPcToRom (loadImage (lo :: hi :: rest) s)).pc.toNat = s.cfg.romBase := by
    have hlt : s.cfg.romBase < 65536 := by have := romBase_add_two_le hc; omega
    exact (congrArg BitVec.toNat (State.pc_setPc _ _)).trans (Laws.EncodingFits.toNat_of_lt hlt)
  have hend : (setPcToRom (loadImage (lo :: hi :: rest) s)).endAddr = s.cfg.romBase + (rest.length + 2) := rfl
  refine fetch_word hpc.ge (by omega) ?_
  rw [hpc]
  exact (wordAt_of_writeBytes hm rfl).trans hword

theorem flags_placeAtFetch (bytes : List Byte) (s : State) : (placeAtFetch bytes s).flags = s.flags := by
  rw [placeAtFetch]; split <;> rfl

theorem reg_placeAtFetch_other (bytes : List Byte) (s : State) {k : RegNum} (hk : k ≠ pcNum) :
    (placeAtFetch bytes s).reg k = s.reg k := by
  rw [placeAtFetch]
  split
  · rfl
  · exact State.reg_setPc_other (loadImage _ s) k _ hk

/-- Settles O60: in either placement the word stands at `pc`, inside the fetch window. -/
theorem placedWordIsFetched : Obligations.PlacedWordIsFetched := by
  intro s w hc hm hrom hw
  refine ⟨?_, flags_placeAtFetch _ s, fun _ => reg_placeAtFetch_other _ s⟩
  by_cases h : fetchValid s s.pc.toNat = true
  · exact fetch_placed_inside hm hrom hw h
  · exact fetch_placed_outside hc hm hw h

end Sys2Proof.Machine
end
